-- ==== Sys2Proof/Word.lean ====
section
/-! DEFINITION. The words of the block: bytes (registers, memory cells, opcodes, operands) and the 9-bit
program counter. Bit 7 of a byte is its most significant bit (00_scope.md R11). -/

namespace Sys2Proof

/-- An 8-bit unsigned value: a register, a memory cell, an opcode or an operand (R12, R20, R23). -/
abbrev Byte := BitVec 8

/-- The 9-bit unsigned program counter, 0..511 (10_state.md R28). -/
abbrev PcWord := BitVec 9

end Sys2Proof
end

