-- ==== Sys2Proof/Config.lean ====
section
/-! DEFINITION. The parameters that the spec fixes for this hardware (00_scope.md R5). The two that R5 leaves
OPEN, `STRICT_OPCODES` and `GPR_RESET`, have their adopted values in Sys2Proof/Machine/ResetValues.lean;
`IMAGE` is an argument of `resetWith` (Sys2Proof/Machine/Reset.lean). -/

namespace Sys2Proof

/-- `MEM_SIZE`: 256 byte cells, addresses 0..255 (R5, R20). -/
def Config.memSize : Nat := 256

/-- `NREG`: eight general registers R0..R7 (R5, R22). -/
def Config.nreg : Nat := 8

/-- `SP_INDEX`: register 7 is the stack pointer (R5, R25). -/
def Config.spIndex : Fin 8 := 7

/-- `SP_RESET`: 0xF4 (R5, R26). -/
def Config.spReset : Byte := 0xF4

/-- `PC_RESET`: 0 (R5, R29). -/
def Config.pcReset : PcWord := 0

end Sys2Proof
end

