-- ==== Sys2Proof/Machine/ResetValues.lean ====
section
/-! DEFINITION. The values this model adopts for the two parameters the spec leaves OPEN (00_scope.md R5), used by
`State.reset` only. Both are free arguments of `resetWith`. -/

namespace Sys2Proof.Machine

/-- `GPR_RESET`, the reset values of R0..R6: the spec gives none (10_state.md R27, decision D13).
DESIGN CHOICE: all zero. Unsafe: a claim about a run from `State.reset` may lean on it (log 1). -/
def gprResetValues : Vector Byte 7 := #v[0, 0, 0, 0, 0, 0, 0]

/-- `STRICT_OPCODES` at reset: the default of R5, `false`, the permissive policy (decision D6, log 2). -/
def strictOpcodesDefault : Bool := false

/-- The register file at reset: R0..R6 from `GPR_RESET`, R7 = 0xF4 (10_state.md R26, R27, R36). -/
def resetRegisters (gpr : Vector Byte 7) : Vector Byte 8 := gpr.push Config.spReset

end Sys2Proof.Machine
end

