-- ==== Sys2Proof/Machine/State.lean ====
section
/-! DEFINITION. The state of the block (10_state.md), the reasons a step stops, and the state after reset. -/

namespace Sys2Proof.Machine

/-- The run state (10_state.md R31). -/
inductive RunState where
  /-- The engine performs steps. -/
  | running
  /-- HLT has executed. Final. -/
  | halted
  /-- A fault was raised. Terminal, and not a successful end. -/
  | faulted
  deriving DecidableEq, Repr

/-- The fault kinds of the block (60_exceptions.md R210). -/
inductive FaultKind where
  | outOfBounds
  | invalidRegister
  | unsupportedOperation
  | divisionByZero
  | unknownOpcode
  | stackOverflow
  | stackUnderflow
  deriving DecidableEq, Repr

/-- Memory: address and byte, addresses strictly rising, no cell that holds what an unlisted address reads as
(`Memory.wf` in Ops.lean; log 5). -/
abbrev Memory := List Host.Cell

/-- The whole state of the block, and the configuration input that is fixed for its run. -/
structure State where
  /-- The 256 byte cells, for program and stack (R20, R50). -/
  mem : Memory
  /-- R0..R7; R7 is the stack pointer and has no other copy (R22, R23, R25). -/
  x : Vector Byte 8
  /-- The address of the next opcode to fetch; during an instruction, of its own opcode (R28). -/
  pc : PcWord
  /-- RUNNING, HALTED or FAULTED (R31). -/
  run : RunState
  /-- `fault_kind`; `none` is code 0, no fault (R33, R210). -/
  faultKind : Option FaultKind
  /-- `fault_pc`: the failing instruction's address (R33). -/
  faultPc : PcWord
  /-- `fault_opcode`: the byte the faulting step fetched, 0x00 if its fetch faulted (R33). -/
  faultOpcode : Byte
  /-- The output trace: one byte per executed PRN, oldest first (R34, log 6). -/
  out : List Byte
  /-- The static configuration input `STRICT_OPCODES`, the model's own field: no step writes it (R35, log 2). -/
  strictOpcodes : Bool
  deriving DecidableEq, Repr

/-- Why `step` answers a host-level fault: no step is enabled. Faults of the SPEC are not here: they are next
states, with `run` FAULTED and the fault record written (60_exceptions.md R213; log 3). -/
inductive Fault where
  /-- Raised by `step` in HALTED, where no step is enabled (10_state.md R31, 40_engine.md R118). Safe. -/
  | haltedNoStep
  /-- Raised by `step` in FAULTED, where no step is enabled (10_state.md R31, 40_engine.md R119). Safe. -/
  | faultedNoStep
  deriving DecidableEq, Repr

/-- Why an instruction has no meaning in this model. -/
inductive Refusal where
  /-- Raised by `exec` for an instruction without a meaning yet. No arm does so. Safe. -/
  | notModelled (mnemonic : String)
  deriving DecidableEq, Repr

/-- The state right after reset with the empty image (10_state.md R36, 70_reset_and_hazards.md R240, R241). Every
value is the spec's but R0..R6 and `strictOpcodes`, which ResetValues.lean names (log 1, log 2). -/
def State.reset : State where
  mem := []
  x := resetRegisters gprResetValues
  pc := Config.pcReset
  run := .running
  faultKind := none
  faultPc := 0
  faultOpcode := 0
  out := []
  strictOpcodes := strictOpcodesDefault

end Sys2Proof.Machine
end

