-- ==== Sys2Proof/Machine/Flags.lean ====
section
/-! DEFINITION. The integer_alu (42_alu.md R154). The block has NO flags (10_state.md R30): a carry, a borrow, the
high half of a product and a remainder are lost, and nothing records them (R150 to R153). So the value below is
the whole answer of an ALU operation. -/

namespace Sys2Proof.Machine

/-- The operations a caller may ask the ALU for; `other` stands for any operation outside its four. No
instruction asks for it (R154, decision D27). -/
inductive AluOp where
  | add | sub | mul | div | other
  deriving DecidableEq, Repr

/-- `ALU(op, a, b)`: exact integer arithmetic, reduced modulo 256 at the end; division is unsigned and truncated
(42_alu.md R154, R155; decisions D1, D2; log 10, log 11). -/
def alu (op : AluOp) (a b : Byte) : Except FaultKind Byte :=
  match op with
  | .add => .ok (BitVec.ofNat 8 (a.toNat + b.toNat))
  | .sub => .ok (BitVec.ofInt 8 ((a.toNat : Int) - (b.toNat : Int)))
  | .mul => .ok (BitVec.ofNat 8 (a.toNat * b.toNat))
  | .div => if b.toNat = 0 then .error .divisionByZero else .ok (BitVec.ofNat 8 (a.toNat / b.toNat))
  | .other => .error .unsupportedOperation

end Sys2Proof.Machine
end

