-- ==== Sys2Proof/Syntax.lean ====
section
/-! DEFINITION. The eleven instructions (00_scope.md R2, 30_encoding.md R90), one constructor per row of
spec/opcode_table.json. An operand is the whole operand byte as it stands in memory: `a` and `b` are
register-index bytes, `imm8` the immediate (R80, R85). A register-index byte of 8 or more is a legal encoding; it
decodes and its instruction then raises InvalidRegister (R88, R91). -/

namespace Sys2Proof

/-- An instruction with its operand bytes. -/
inductive Instr where
  | ldi (a imm8 : Byte)
  | prn (a : Byte)
  | hlt
  | add (a b : Byte)
  | sub (a b : Byte)
  | mul (a b : Byte)
  | div (a b : Byte)
  | push (a : Byte)
  | pop (a : Byte)
  | call (a : Byte)
  | ret
  deriving DecidableEq, Repr

end Sys2Proof
end

