-- ==== Sys2Proof/WellFormed.lean ====
section
/-! DEFINITION. An instruction is well formed when every register-index byte it holds names a register
(10_state.md R24, 30_encoding.md R88). Ill-formed instructions are still legal encodings: they decode, run, and
raise InvalidRegister. These are the instructions that the syntax of 30_encoding.md R95 can spell without `DB`. -/

namespace Sys2Proof

/-- The register-index bytes of an instruction, byte 1 first (R80). -/
def Instr.registerBytes : Instr → List Byte
  | .ldi a _ => [a]
  | .prn a => [a]
  | .hlt => []
  | .add a b => [a, b]
  | .sub a b => [a, b]
  | .mul a b => [a, b]
  | .div a b => [a, b]
  | .push a => [a]
  | .pop a => [a]
  | .call a => [a]
  | .ret => []

/-- Every register-index byte is 0..7 (R24). -/
def Instr.wellFormed (i : Instr) : Bool := i.registerBytes.all fun b => b.toNat < 8

end Sys2Proof
end

