-- ==== Sys2Proof/Decode.lean ====
section
/-! DEFINITION. The instruction_decoder and the encoder (30_encoding.md). The opcode values stand in ONE table,
`Handler.opcode`, from which decoder and encoder are both made. -/

namespace Sys2Proof

/-! ### The opcode map (R90) -/

/-- The eleven handlers of the dispatch table (R90). -/
inductive Handler where
  | ldi | prn | hlt | add | sub | mul | div | push | pop | call | ret
  deriving DecidableEq, Repr

/-- The opcode values of R90. LDI is the source's; the other ten are the values the spec adopts
(decision D11; UNVERIFIED, unsafe, log 8). -/
def Handler.opcode : Handler → Byte
  | .ldi => 0x82
  | .prn => 0x47
  | .hlt => 0x01
  | .add => 0xA0
  | .sub => 0xA1
  | .mul => 0xA2
  | .div => 0xA3
  | .push => 0x45
  | .pop => 0x46
  | .call => 0x50
  | .ret => 0x11

/-- Every handler, in the order of R90. -/
def Handler.all : List Handler :=
  [.ldi, .prn, .hlt, .add, .sub, .mul, .div, .push, .pop, .call, .ret]

/-! ### The decoder of the opcode byte (R81 to R84) -/

/-- Opcode bits 7:6 (R81, R83). Bit 5 is ignored (R82). -/
def operandCount (op : Byte) : Nat := (op >>> 6).toNat

/-- Opcode bit 4 (R81, R83). -/
def setsPc (op : Byte) : Bool := op.getLsbD 4

/-- `HANDLER[op]`: the whole byte is the key; `none` is the spec's NONE (R84, R92). -/
def handlerOf (op : Byte) : Option Handler := Handler.all.find? fun h => h.opcode == op

/-- What the decoder answers for an opcode byte (R83). -/
structure DecodedOpcode where
  operandCount : Nat
  setsPc : Bool
  handler : Option Handler
  deriving DecidableEq, Repr

/-- The instruction_decoder: a pure function of the opcode byte, total on all 256 values (R83, R93). -/
def decodeOpcode (op : Byte) : DecodedOpcode :=
  { operandCount := operandCount op, setsPc := setsPc op, handler := handlerOf op }

/-- Instruction length in bytes, from the opcode byte alone (R86). -/
def instrLength (op : Byte) : Nat := operandCount op + 1

/-! ### Instructions from bytes -/

/-- Why bytes are no instruction. -/
inductive DecodeReject where
  /-- There is no opcode byte. In a fetch: `pc` lies outside memory (R111). -/
  | noOpcode
  /-- The opcode is none of the eleven (R92). -/
  | unknownOpcode (op : Byte)
  /-- A defined opcode lacks an operand byte. In a fetch: the operand lies outside memory (R85). -/
  | operandMissing (op : Byte)
  deriving DecidableEq, Repr

/-- The operands of a handler's format, taken from the bytes after its opcode (R80, R85). -/
def assemble : Handler → List Byte → Option (Instr × List Byte)
  | .ldi, a :: imm8 :: rest => some (.ldi a imm8, rest)
  | .prn, a :: rest => some (.prn a, rest)
  | .hlt, rest => some (.hlt, rest)
  | .add, a :: b :: rest => some (.add a b, rest)
  | .sub, a :: b :: rest => some (.sub a b, rest)
  | .mul, a :: b :: rest => some (.mul a b, rest)
  | .div, a :: b :: rest => some (.div a b, rest)
  | .push, a :: rest => some (.push a, rest)
  | .pop, a :: rest => some (.pop a, rest)
  | .call, a :: rest => some (.call a, rest)
  | .ret, rest => some (.ret, rest)
  | .ldi, [] | .ldi, [_] | .add, [] | .add, [_] | .sub, [] | .sub, [_] | .mul, [] | .mul, [_]
  | .div, [] | .div, [_] | .prn, [] | .push, [] | .pop, [] | .call, [] => none

/-- The instruction that stands first in a list of bytes, with the bytes after it (R80, R84, R85). -/
def decode : List Byte → Except DecodeReject (Instr × List Byte)
  | [] => .error .noOpcode
  | op :: rest =>
    match handlerOf op with
    | none => .error (.unknownOpcode op)
    | some h =>
      match assemble h rest with
      | none => .error (.operandMissing op)
      | some found => .ok found

/-! ### The encoder (R80, R91) -/

/-- The handler that an instruction selects. -/
def Instr.handler : Instr → Handler
  | .ldi _ _ => .ldi
  | .prn _ => .prn
  | .hlt => .hlt
  | .add _ _ => .add
  | .sub _ _ => .sub
  | .mul _ _ => .mul
  | .div _ _ => .div
  | .push _ => .push
  | .pop _ => .pop
  | .call _ => .call
  | .ret => .ret

/-- The opcode byte of an instruction (R90). -/
def Instr.opcode (i : Instr) : Byte := i.handler.opcode

/-- The operand bytes of an instruction, in memory order (R80). -/
def Instr.operandBytes : Instr → List Byte
  | .ldi a imm8 => [a, imm8]
  | .prn a => [a]
  | .hlt => []
  | .add a b => [a, b]
  | .sub a b => [a, b]
  | .mul a b => [a, b]
  | .div a b => [a, b]
  | .push a => [a]
  | .pop a => [a]
  | .call a => [a]
  | .ret => []

/-- The bytes of an instruction, at increasing addresses (R54, R80, R91). -/
def encode (i : Instr) : List Byte := i.opcode :: i.operandBytes

/-! ### Words as spec/opcode_table.json numbers them -/

/-- The three bytes of a table word of `nbits` bits: the first byte is bits 7..0, the next 15..8, then 23..16;
bits from `nbits` up are 0. Three bytes are the longest instruction (R80). -/
def tableBytes (nbits w : Nat) : List Byte :=
  let v := w % 2 ^ nbits
  [BitVec.ofNat 8 v, BitVec.ofNat 8 (v / 256), BitVec.ofNat 8 (v / 65536)]

/-- The instruction the decoder reads from a table word; `none` where it rejects. -/
def decodeTableWord (nbits w : Nat) : Option Instr :=
  match decode (tableBytes nbits w) with
  | .ok found => some found.1
  | .error _ => none

end Sys2Proof
end

