-- ==== Sys2Proof/Machine/Ops.lean ====
section
/-! DEFINITION. The named operations over memory, registers, stack pointer, output, pc and fault record. An
operation that can raise a fault of the spec answers `Except FaultKind`. -/

namespace Sys2Proof.Machine

/-! ### The memory list -/

/-- What an unlisted address reads as: memory is "zero-initialized at construction" (10_state.md R20, R36). -/
def unlistedByte : Byte := 0

/-- The byte at an address (20_memory.md R51, R53). -/
def Memory.read : Memory → Nat → Byte
  | [], _ => unlistedByte
  | (b, w) :: rest, a => if b = a then w else Memory.read rest a

/-- The memory with one cell changed (20_memory.md R52, R53), in canonical form. -/
def Memory.write : Memory → Nat → Byte → Memory
  | [], a, v => if v = unlistedByte then [] else [(a, v)]
  | (b, w) :: rest, a, v =>
    if a < b then
      if v = unlistedByte then (b, w) :: rest else (a, v) :: (b, w) :: rest
    else if a = b then
      if v = unlistedByte then rest else (a, v) :: rest
    else (b, w) :: Memory.write rest a v

/-- The canonical form from an address up. -/
def Memory.wfFrom : Nat → Memory → Bool
  | _, [] => true
  | lo, (a, v) :: rest =>
    decide (lo ≤ a) && decide (a < Config.memSize) && decide (v ≠ unlistedByte) && Memory.wfFrom (a + 1) rest

/-- The canonical form: addresses strictly rising and below 256, no cell equal to an unlisted one (log 5). -/
def Memory.wf (m : Memory) : Bool := Memory.wfFrom 0 m

/-- The bytes written at consecutive addresses from `a` up, those at 256 and above left out. -/
def Memory.loadBytes : Memory → Nat → List Byte → Memory
  | m, _, [] => m
  | m, a, v :: rest =>
    Memory.loadBytes (if a < Config.memSize then m.write a v else m) (a + 1) rest

/-- The `n` bytes from address `a` up, as far as memory goes: shorter than `n` exactly if one of them lies at 256
or above, where the read raises OutOfBounds (20_memory.md R51). -/
def Memory.bytesFrom (m : Memory) : Nat → Nat → List Byte
  | _, 0 => []
  | a, n + 1 => if a < Config.memSize then m.read a :: Memory.bytesFrom m (a + 1) n else []

/-! ### The memory interface -/

/-- `MemRead(addr, 1)` (20_memory.md R51). -/
def memRead (addr : Nat) (s : State) : Except FaultKind Byte :=
  if Config.memSize ≤ addr then .error .outOfBounds else .ok (s.mem.read addr)

/-- `MemWrite(addr, 1, v)`: address and value are both checked (20_memory.md R52, decision D5, log 12). -/
def memWrite (addr v : Nat) (s : State) : Except FaultKind State :=
  if Config.memSize ≤ addr then .error .outOfBounds
  else if 256 ≤ v then .error .outOfBounds
  else .ok { s with mem := s.mem.write addr (BitVec.ofNat 8 v) }

/-! ### The register file -/

/-- `x[r]` (10_state.md R24). -/
def State.reg (s : State) (r : Fin 8) : Byte := s.x[r]

/-- `x[r] <- v` (10_state.md R24). -/
def State.setReg (s : State) (r : Fin 8) (v : Byte) : State := { s with x := s.x.set r v }

/-- The stack pointer is R7 (10_state.md R25). -/
def State.sp (s : State) : Byte := s.reg Config.spIndex

/-- Write the stack pointer (10_state.md R25). -/
def State.setSp (s : State) (v : Byte) : State := s.setReg Config.spIndex v

/-! ### The stack pointer's checks -/

/-- `sp -= 1`, or StackOverflow at `sp` = 0 (43_stack.md R170, decision D12, log 13). -/
def decrementSp (s : State) : Except FaultKind State :=
  if s.sp = 0 then .error .stackOverflow else .ok (s.setSp (s.sp - 1))

/-- The byte on top of the stack, or StackUnderflow at `sp` = 255 (43_stack.md R171, decision D12, log 13). -/
def topOfStack (s : State) : Except FaultKind Byte :=
  if s.sp = 255 then .error .stackUnderflow else memRead s.sp.toNat s

/-- `sp += 1`, after a pop's check (43_stack.md R171). -/
def incrementSp (s : State) : State := s.setSp (s.sp + 1)

/-! ### Output, run state and pc -/

/-- `Emit(v)`: one `out` event, in execution order (41_load_print_halt.md R131, log 6). -/
def emit (v : Byte) (s : State) : State := { s with out := s.out ++ [v] }

/-- `run <- HALTED` (41_load_print_halt.md R132). -/
def haltRun (s : State) : State := { s with run := .halted }

/-- `pc <- v`, an 8-bit value (44_call_return.md R190, R191). -/
def jumpTo (v : Byte) (s : State) : State := { s with pc := v.setWidth 9 }

/-- Auto-advance, from the opcode's bits 4 and 7:6 alone, in 9 bits (40_engine.md R113). -/
def autoAdvance (op : Byte) (s : State) : State :=
  if setsPc op then s else { s with pc := s.pc + BitVec.ofNat 9 (operandCount op + 1) }

/-! ### Taking a fault -/

/-- Fault entry: `Fault(F, start_pc, op)`, where `s` is the state the step started from, so that `s.pc` is
`start_pc` and nothing else changes (60_exceptions.md R213, R214; 40_engine.md R110). There is no return from it
but reset (R215). -/
def takeFault (k : FaultKind) (op : Byte) (s : State) : State :=
  { s with run := .faulted, faultKind := some k, faultPc := s.pc, faultOpcode := op }

/-- The engine around a handler: a fault it raises is taken from the state the step started from; otherwise its
state is kept and pc auto-advances (40_engine.md R110, R113). -/
def runHandler (h : Handler) (s : State) (answer : Except FaultKind State) : Host.Outcome State Fault Refusal :=
  match answer with
  | .error k => .next (takeFault k h.opcode s)
  | .ok t => .next (autoAdvance h.opcode t)

/-! ### The ports the host reads (00_scope.md R10) -/

/-- The 2-bit `run_state` code (10_state.md R31). -/
def RunState.code : RunState → BitVec 2
  | .running => 0
  | .halted => 1
  | .faulted => 2

/-- The 3-bit fault code (60_exceptions.md R210). -/
def FaultKind.code : FaultKind → BitVec 3
  | .outOfBounds => 1
  | .invalidRegister => 2
  | .unsupportedOperation => 3
  | .divisionByZero => 4
  | .unknownOpcode => 5
  | .stackOverflow => 6
  | .stackUnderflow => 7

/-- The `run_state` port. -/
def State.runStatePort (s : State) : BitVec 2 := s.run.code

/-- The `fault_kind` port: code 0 is no fault (R33, R210). -/
def State.faultKindPort (s : State) : BitVec 3 :=
  match s.faultKind with
  | none => 0
  | some k => k.code

end Sys2Proof.Machine
end

