-- ==== Sys2Proof/Machine/Operands.lean ====
section
/-! DEFINITION. The operand forms: register-index bytes, and the operand bytes' fetch check (30_encoding.md R85).
An immediate operand is the byte itself, neither extended nor scaled (R85), so it needs no operation. -/

namespace Sys2Proof.Machine

/-- `RegIdx(b)`: the whole byte is compared with 8 (10_state.md R24, decision D19, log 21). -/
def regIdx (b : Byte) : Except FaultKind (Fin 8) :=
  if h : b.toNat < 8 then .ok ⟨b.toNat, h⟩ else .error .invalidRegister

/-- The addresses `pc + 1 .. pc + operand_count` of a handler's operand bytes (30_encoding.md R85). -/
def operandAddresses (h : Handler) (s : State) : List Nat :=
  (List.range (operandCount h.opcode)).map fun k => s.pc.toNat + (k + 1)

/-- The operand fetch's check: OutOfBounds if an operand byte would lie at 256 or above (R85, 20_memory.md R51).
`step` can hand `exec` no instruction for which it fails; it stands here so that each meaning is whole (log 4). -/
def fetchOperands (h : Handler) (s : State) : Except FaultKind Unit :=
  if (operandAddresses h s).all (· < Config.memSize) then .ok () else .error .outOfBounds

end Sys2Proof.Machine
end

