-- ==== Sys2Proof/Machine/Arithmetic.lean ====
section
/-! DEFINITION. ADD, SUB, MUL and DIV (42_alu.md): one shared form over the ALU. -/

namespace Sys2Proof.Machine

/-- `OPERANDS_RR`, then `x[a] <- ALU(op, x[a], x[b])`; both reads see the old values (42_alu.md). -/
def aluWriteBack (h : Handler) (op : AluOp) (a b : Byte) (s : State) : Except FaultKind State := do
  fetchOperands h s
  let ra ← regIdx a
  let rb ← regIdx b
  let v ← alu op (s.reg ra) (s.reg rb)
  pure (s.setReg ra v)

/-- ADD (R150). -/
def execAdd (a b : Byte) (s : State) : Host.Outcome State Fault Refusal :=
  runHandler .add s (aluWriteBack .add .add a b s)

/-- SUB (R151). -/
def execSub (a b : Byte) (s : State) : Host.Outcome State Fault Refusal :=
  runHandler .sub s (aluWriteBack .sub .sub a b s)

/-- MUL (R152). -/
def execMul (a b : Byte) (s : State) : Host.Outcome State Fault Refusal :=
  runHandler .mul s (aluWriteBack .mul .mul a b s)

/-- DIV; a zero divisor raises DivisionByZero and leaves `x[a]` unchanged (R153). -/
def execDiv (a b : Byte) (s : State) : Host.Outcome State Fault Refusal :=
  runHandler .div s (aluWriteBack .div .div a b s)

end Sys2Proof.Machine
end

