-- ==== Sys2Proof/Machine/CallReturn.lean ====
section
/-! DEFINITION. CALL and RET (44_call_return.md), the only instructions that write pc themselves. -/

namespace Sys2Proof.Machine

/-- CALL: push `pc + 2`, then `pc <- x[a]`, with `x[a]` read after the push (R190). StackOverflow is checked
before the return address, whose check is `memWrite`'s (20_memory.md R52, decision D5). -/
def execCall (a : Byte) (s : State) : Host.Outcome State Fault Refusal :=
  runHandler .call s do
    fetchOperands .call s
    let r ← regIdx a
    let t ← decrementSp s
    let u ← memWrite t.sp.toNat (s.pc.toNat + 2) t
    pure (jumpTo (u.reg r) u)

/-- RET: pop the return address into pc (R191). -/
def execRet (s : State) : Host.Outcome State Fault Refusal :=
  runHandler .ret s do
    let v ← topOfStack s
    pure (jumpTo v (incrementSp s))

end Sys2Proof.Machine
end

