-- ==== Sys2Proof/Machine/LoadPrintHalt.lean ====
section
/-! DEFINITION. LDI, PRN and HLT (41_load_print_halt.md). -/

namespace Sys2Proof.Machine

/-- LDI: `x[a] <- imm8` (R130). -/
def execLdi (a imm8 : Byte) (s : State) : Host.Outcome State Fault Refusal :=
  runHandler .ldi s do
    fetchOperands .ldi s
    let r ← regIdx a
    pure (s.setReg r imm8)

/-- PRN: `Emit(x[a])` (R131). -/
def execPrn (a : Byte) (s : State) : Host.Outcome State Fault Refusal :=
  runHandler .prn s do
    fetchOperands .prn s
    let r ← regIdx a
    pure (emit (s.reg r) s)

/-- HLT: `run <- HALTED`; pc then advances by 1, since bit 4 of 0x01 is 0 (R132, conflict C1, decision D10,
log 17). -/
def execHlt (s : State) : Host.Outcome State Fault Refusal :=
  runHandler .hlt s (pure (haltRun s))

end Sys2Proof.Machine
end

