-- ==== Sys2Proof/Machine/Stack.lean ====
section
/-! DEFINITION. PUSH and POP (43_stack.md). Statements run in the written order, which settles R7 as the explicit
operand (decision D22, log 14). -/

namespace Sys2Proof.Machine

/-- PUSH: `sp -= 1`, then `memory[sp] = x[a]`, with `x[a]` read after the decrement (R170). -/
def execPush (a : Byte) (s : State) : Host.Outcome State Fault Refusal :=
  runHandler .push s do
    fetchOperands .push s
    let r ← regIdx a
    let t ← decrementSp s
    memWrite t.sp.toNat (t.reg r).toNat t

/-- POP: `x[a] = memory[sp]`, then `sp += 1`, reading `sp` after that write (R171). -/
def execPop (a : Byte) (s : State) : Host.Outcome State Fault Refusal :=
  runHandler .pop s do
    fetchOperands .pop s
    let r ← regIdx a
    let v ← topOfStack s
    pure (incrementSp (s.setReg r v))

end Sys2Proof.Machine
end

