-- ==== Sys2Proof/Machine/Fetch.lean ====
section
/-! DEFINITION. The engine's part of a step: the fetch, the unknown-opcode cycle, and where an instruction's bytes
stand (40_engine.md R110, R111, R116). -/

namespace Sys2Proof.Machine

/-- The bytes a step fetches: the opcode at pc, then the operand bytes of a DEFINED opcode, as far as memory goes.
Nothing at all if pc >= 256; no operand byte for an unknown opcode (R111, R116; 30_encoding.md R85, R92;
20_memory.md R56; decision D7, log 15). -/
def fetchBytes (s : State) : List Byte :=
  if Config.memSize ≤ s.pc.toNat then []
  else
    let op := s.mem.read s.pc.toNat
    match handlerOf op with
    | none => [op]
    | some _ => op :: s.mem.bytesFrom (s.pc.toNat + 1) (operandCount op)

/-- The unknown-opcode cycle (40_engine.md R116): strict, a fault; permissive, auto-advance and nothing else. -/
def unknownOpcodeCycle (op : Byte) (s : State) : State :=
  if s.strictOpcodes then takeFault .unknownOpcode op s else autoAdvance op s

/-- What the engine does when the fetched bytes are no instruction it can run (R110, R111, R116; 30_encoding.md
R85). No opcode byte: OutOfBounds with `fault_opcode` 0x00 (decision D23). -/
def rejectedCycle (why : DecodeReject) (s : State) : State :=
  match why with
  | .noOpcode => takeFault .outOfBounds 0 s
  | .operandMissing op => takeFault .outOfBounds op s
  | .unknownOpcode op => unknownOpcodeCycle op s

/-- The bytes stored where `step` fetches its next instruction: at pc and the addresses after it. -/
def storeAtFetch (bytes : List Byte) (s : State) : State :=
  { s with mem := s.mem.loadBytes s.pc.toNat bytes }

end Sys2Proof.Machine
end

