-- ==== Sys2Proof/Machine/Reset.lean ====
section
/-! DEFINITION. `reset(IMAGE)`, the loader port (00_scope.md R10; 70_reset_and_hazards.md R240, R241). -/

namespace Sys2Proof.Machine

/-- `reset(IMAGE)` with its two OPEN parameters as arguments. The answer does not depend on the state before it
(R240). An image of more than 256 bytes is refused: `none`, the block is not reset and does not run (R241, decision
D14, log 7). -/
def resetWith (strict : Bool) (gpr : Vector Byte 7) (image : List Byte) : Option State :=
  if Config.memSize < image.length then none
  else
    some
      { mem := Memory.loadBytes [] 0 image
        x := resetRegisters gpr
        pc := Config.pcReset
        run := .running
        faultKind := none
        faultPc := 0
        faultOpcode := 0
        out := []
        strictOpcodes := strict }

end Sys2Proof.Machine
end

