-- ==== Sys2Proof/Machine/Step.lean ====
section
/-! DEFINITION. One step of the engine (40_engine.md R110): fetch, decode, dispatch, advance. -/

namespace Sys2Proof.Machine

/-- One step. It is enabled only when RUNNING (R110, R118, R119). -/
def step (s : State) : Host.Outcome State Fault Refusal :=
  match s.run with
  | .halted => .fault .haltedNoStep
  | .faulted => .fault .faultedNoStep
  | .running =>
    match decode (fetchBytes s) with
    | .ok found => exec found.1 s
    | .error why => .next (rejectedCycle why s)

/-- `s` with a table word stored where `step` fetches its next instruction (log 7). -/
def State.withFetchWord (s : State) (nbits w : Nat) : State := storeAtFetch (tableBytes nbits w) s

end Sys2Proof.Machine
end

