-- ==== Sys2Proof/Machine/Reference.lean ====
section
/-! DEFINITION. The spec's own pseudocode of one step (40_engine.md R110), line by line: no instruction is built,
operands are fetched from memory inside each handler, and every check stands where the spec's text puts it. `step`
is stated equal to it (Obligations.StepFollowsTheSpecsPseudocode); nothing in the machine uses it. -/

namespace Sys2Proof.Machine

/-- `Fetch(k) = MemRead(pc + k, 1)` (30_encoding.md R85). -/
def Reference.fetch (k : Nat) (s : State) : Except FaultKind Byte := memRead (s.pc.toNat + k) s

/-- `raise F` under a condition (00_scope.md R13). -/
def Reference.raiseIf (c : Bool) (k : FaultKind) : Except FaultKind Unit := if c then .error k else .ok ()

/-- `OPERANDS_RR` (42_alu.md). -/
def Reference.operandsRR (s : State) : Except FaultKind (Fin 8 × Fin 8) := do
  let b1 ← Reference.fetch 1 s
  let b2 ← Reference.fetch 2 s
  let a ← regIdx b1
  let b ← regIdx b2
  pure (a, b)

/-- The handlers' pseudocode (R130 to R132, R150 to R153, R170, R171, R190, R191). -/
def Reference.handler (h : Handler) (s : State) : Except FaultKind State :=
  match h with
  | .ldi => do
    let b1 ← Reference.fetch 1 s
    let b2 ← Reference.fetch 2 s
    let a ← regIdx b1
    pure { s with x := s.x.set a b2 }
  | .prn => do
    let b1 ← Reference.fetch 1 s
    let a ← regIdx b1
    pure { s with out := s.out ++ [s.x[a]] }
  | .hlt => pure { s with run := .halted }
  | .add => do
    let (a, b) ← Reference.operandsRR s
    pure { s with x := s.x.set a (BitVec.ofNat 8 ((s.x[a].toNat + s.x[b].toNat) % 256)) }
  | .sub => do
    let (a, b) ← Reference.operandsRR s
    pure { s with x := s.x.set a (BitVec.ofInt 8 (((s.x[a].toNat : Int) - (s.x[b].toNat : Int)) % 256)) }
  | .mul => do
    let (a, b) ← Reference.operandsRR s
    pure { s with x := s.x.set a (BitVec.ofNat 8 ((s.x[a].toNat * s.x[b].toNat) % 256)) }
  | .div => do
    let (a, b) ← Reference.operandsRR s
    Reference.raiseIf (s.x[b] == 0) .divisionByZero
    pure { s with x := s.x.set a (BitVec.ofNat 8 (s.x[a].toNat / s.x[b].toNat)) }
  | .push => do
    let b1 ← Reference.fetch 1 s
    let a ← regIdx b1
    Reference.raiseIf (s.x[7] == 0) .stackOverflow
    let t := { s with x := s.x.set 7 (s.x[7] - 1) }
    memWrite t.x[7].toNat t.x[a].toNat t
  | .pop => do
    let b1 ← Reference.fetch 1 s
    let a ← regIdx b1
    Reference.raiseIf (s.x[7] == 255) .stackUnderflow
    let v ← memRead s.x[7].toNat s
    let t := { s with x := s.x.set a v }
    pure { t with x := t.x.set 7 (t.x[7] + 1) }
  | .call => do
    let b1 ← Reference.fetch 1 s
    let a ← regIdx b1
    Reference.raiseIf (s.x[7] == 0) .stackOverflow
    let ret := s.pc.toNat + 2
    Reference.raiseIf (decide (256 ≤ ret)) .outOfBounds
    let t := { s with x := s.x.set 7 (s.x[7] - 1) }
    let u ← memWrite t.x[7].toNat ret t
    pure { u with pc := u.x[a].setWidth 9 }
  | .ret => do
    Reference.raiseIf (s.x[7] == 255) .stackUnderflow
    let v ← memRead s.x[7].toNat s
    let t := { s with x := s.x.set 7 (s.x[7] + 1) }
    pure { t with pc := v.setWidth 9 }

/-- `step()` of R110. -/
def Reference.step (s : State) : Host.Outcome State Fault Refusal :=
  match s.run with
  | .halted => .fault .haltedNoStep
  | .faulted => .fault .faultedNoStep
  | .running =>
    match memRead s.pc.toNat s with
    | .error k => .next (takeFault k 0 s)
    | .ok op =>
      let d := decodeOpcode op
      match d.handler with
      | none =>
        if s.strictOpcodes then .next (takeFault .unknownOpcode op s)
        else if d.setsPc then .next s
        else .next { s with pc := s.pc + BitVec.ofNat 9 d.operandCount + 1 }
      | some h =>
        match Reference.handler h s with
        | .error k => .next (takeFault k op s)
        | .ok t => if d.setsPc then .next t else .next { t with pc := t.pc + BitVec.ofNat 9 d.operandCount + 1 }

end Sys2Proof.Machine
end

