-- ==== Sys2Proof/Safety.lean ====
section
/-! DEFINITION. What claims call a legal state, a fault of a step, and the end of a run. -/

namespace Sys2Proof.Machine

/-! ### Legal states -/

/-- The fault record agrees with the run state: clear until a fault (10_state.md R33), and after one it names the
step's pc and a kind that a step can raise (60_exceptions.md R210, R213, R214). -/
def State.recordLegal (s : State) : Bool :=
  match s.run with
  | .running | .halted => decide (s.faultKind = none ∧ s.faultPc = 0 ∧ s.faultOpcode = 0)
  | .faulted =>
    decide (s.faultPc = s.pc ∧ s.faultKind ≠ none ∧ s.faultKind ≠ some .unsupportedOperation ∧
      (s.faultKind = some .unknownOpcode → s.strictOpcodes = true))

/-- The invariant of the block: memory in canonical form, pc in 0..259 (40_engine.md R114), a halted pc in 1..256
(41_load_print_halt.md R132), and a legal fault record. -/
structure State.Inv (s : State) : Prop where
  memory : s.mem.wf = true
  pcRange : s.pc.toNat ≤ 259
  haltedPc : s.run = .halted → 1 ≤ s.pc.toNat ∧ s.pc.toNat ≤ 256
  record : s.recordLegal = true

/-! ### The order of the checks of one step (60_exceptions.md R212) -/

/-- How many of a handler's operand bytes are register indexes, byte 1 first (30_encoding.md R80). -/
def Handler.registerOperands : Handler → Nat
  | .add | .sub | .mul | .div => 2
  | .ldi | .prn | .push | .pop | .call => 1
  | .hlt | .ret => 0

/-- The checks of a step in the order of R212, each as "it fails" with the fault it raises. -/
def faultChecks (s : State) : List (Bool × FaultKind) :=
  let p := s.pc.toNat
  let op := s.mem.read p
  let operand (k : Nat) : Byte := s.mem.read (p + k)
  let count := (handlerOf op).elim 0 fun _ => operandCount op
  let registers := (handlerOf op).elim 0 Handler.registerOperands
  [ (decide (256 ≤ p), .outOfBounds)
  , (decide (handlerOf op = none) && s.strictOpcodes, .unknownOpcode)
  , (decide (1 ≤ count) && decide (256 ≤ p + 1), .outOfBounds)
  , (decide (2 ≤ count) && decide (256 ≤ p + 2), .outOfBounds)
  , (decide (1 ≤ registers) && decide (8 ≤ (operand 1).toNat), .invalidRegister)
  , (decide (2 ≤ registers) && decide (8 ≤ (operand 2).toNat), .invalidRegister)
  , (decide (handlerOf op = some .push ∨ handlerOf op = some .call) && decide (s.sp = 0), .stackOverflow)
  , (decide (handlerOf op = some .pop ∨ handlerOf op = some .ret) && decide (s.sp = 255), .stackUnderflow)
  , (decide (handlerOf op = some .div) && decide (s.x[(operand 2).toNat]? = some 0), .divisionByZero)
  , (decide (handlerOf op = some .call) && decide (p = 254), .outOfBounds) ]

/-- The fault of the first check that fails, if one does (R212). -/
def firstFault (s : State) : Option FaultKind := ((faultChecks s).find? fun c => c.1).map fun c => c.2

/-- The opcode a fault records: the byte at pc, 0x00 if there is none (10_state.md R33). -/
def State.opcodeToRecord (s : State) : Byte := if 256 ≤ s.pc.toNat then 0 else s.mem.read s.pc.toNat

/-! ### The end of a run (40_engine.md R121) -/

/-- Some number of steps leads from `s` to `t`. -/
def Reaches (s t : State) : Prop := ∃ n, Host.Core.run Sys2Proof.core n s = .next t

/-- The run from `s` ends well, in `t`. -/
def EndsWell (s t : State) : Prop := Reaches s t ∧ t.run = .halted

/-- The run from `s` faults, in `t`: never a successful end. -/
def Faults (s t : State) : Prop := Reaches s t ∧ t.run = .faulted

/-- The run from `s` stays RUNNING forever. -/
def Hangs (s : State) : Prop := ∀ n, ∃ t, Host.Core.run Sys2Proof.core n s = .next t ∧ t.run = .running

end Sys2Proof.Machine
end

