-- ==== Sys2Proof/Certificates/Slice0/Obligations.lean ====
section
/-! DEFINITION. The statements about the model, for the provers. Each docstring names the rule of spec/ it comes
from. Where a rule carries a decision of the spec's own (Dn of 92_eei_decisions.md), the docstring says so, and the
statement is listed as derived. -/

open Sys2Proof Sys2Proof.Machine

/-- The state after a fault: only `run` and the fault record differ (60_exceptions.md R213, R214). -/
def Sys2Proof.Claims.afterFault (k : FaultKind) (op : Byte) (s : State) : State :=
  { s with run := .faulted, faultKind := some k, faultPc := s.pc, faultOpcode := op }

/-- The eleven defined opcode bytes, as 30_encoding.md R90 lists them. -/
def Sys2Proof.Claims.definedOpcodes : List Byte :=
  [0x82, 0x47, 0x01, 0xA0, 0xA1, 0xA2, 0xA3, 0x45, 0x46, 0x50, 0x11]

/-- The registers an instruction may change: its destination, and R7 where the instruction moves the stack. -/
def Sys2Proof.Claims.mayChange (i : Instr) (q : Fin 8) : Prop :=
  match i with
  | .ldi a _ | .add a _ | .sub a _ | .mul a _ | .div a _ => a.toNat = q.val
  | .pop a => a.toNat = q.val ∨ q = 7
  | .push _ | .call _ | .ret => q = 7
  | .prn _ | .hlt => False

/-- What the byte at `b` reads as once `v` has been stored at `addr`: the value of the most recent write, else what was
there before (20_memory.md R53, R59). -/
def Sys2Proof.Claims.readAfterStore (m : Memory) (addr : Nat) (v : Byte) (b : Nat) : Byte :=
  if b = addr then v else m.read b

/-- The next step from `t` works on the bytes that `look` gives: an instruction whose bytes `look` shows at pc is run; a
defined opcode whose operand bytes would lie past 255 raises OutOfBounds; any other byte is an unknown opcode, treated
by the policy (40_engine.md R110, R111, R116, 30_encoding.md R85). -/
def Sys2Proof.Claims.NextStepFetches (look : Nat → Byte) (t : State) : Prop :=
  (∀ i : Instr, t.pc.toNat + (encode i).length ≤ 256 →
    (∀ k (hk : k < (encode i).length), look (t.pc.toNat + k) = (encode i)[k]) → step t = exec i t) ∧
  (∀ op : Byte, t.pc.toNat < 256 → look t.pc.toNat = op →
    (op ∈ Sys2Proof.Claims.definedOpcodes → 256 ≤ t.pc.toNat + op.toNat / 64 →
      step t = .next (Sys2Proof.Claims.afterFault .outOfBounds op t)) ∧
    (op ∉ Sys2Proof.Claims.definedOpcodes →
      (t.strictOpcodes = true → step t = .next (Sys2Proof.Claims.afterFault .unknownOpcode op t)) ∧
      (t.strictOpcodes = false → op.toNat / 16 % 2 = 1 → step t = .next t) ∧
      (t.strictOpcodes = false → op.toNat / 16 % 2 = 0 →
        step t = .next { t with pc := BitVec.ofNat 9 (t.pc.toNat + op.toNat / 64 + 1) })))

open Sys2Proof.Claims

/-! ### Encoding -/

/-- Decoding and encoding are inverse, with every operand byte at every value (30_encoding.md R80, R85, R91): bytes
decode to `i` followed by `rest` exactly when they are the encoding of `i` followed by `rest`. -/
def Obligations.DecodeExactlyInvertsEncode : Prop :=
  ∀ (bytes : List Byte) (i : Instr) (rest : List Byte), decode bytes = .ok (i, rest) ↔ bytes = encode i ++ rest

/-- Words written out from the patterns of 30_encoding.md R91 (the opcode values but LDI's are decision D11, log 8),
and one table word with its bytes numbered from bit 0. -/
def Obligations.WrittenOutWordsDecode : Prop :=
  decode [0b10000010, 0b00000000, 0b00001000] = .ok (.ldi 0 8, []) ∧
  decode [0b01000111, 0b00000101] = .ok (.prn 5, []) ∧
  decode [0b00000001] = .ok (.hlt, []) ∧
  decode [0b10100000, 0b00000010, 0b00000011] = .ok (.add 2 3, []) ∧
  decode [0b10100001, 0b00000010, 0b00000011] = .ok (.sub 2 3, []) ∧
  decode [0b10100010, 0b00000010, 0b00000011] = .ok (.mul 2 3, []) ∧
  decode [0b10100011, 0b00000010, 0b00000011] = .ok (.div 2 3, []) ∧
  decode [0b01000101, 0b00000110] = .ok (.push 6, []) ∧
  decode [0b01000110, 0b00000110] = .ok (.pop 6, []) ∧
  decode [0b01010000, 0b00000001] = .ok (.call 1, []) ∧
  decode [0b00010001] = .ok (.ret, []) ∧
  decodeTableWord 24 0x080082 = some (.ldi 0 8)

/-- 30_encoding.md R83: the decoder's three outputs, for every opcode byte. -/
def Obligations.DecoderReadsTheOpcodeBits : Prop :=
  ∀ op : Byte,
    (decodeOpcode op).operandCount = op.toNat / 64 ∧
    ((decodeOpcode op).setsPc = true ↔ op.toNat / 16 % 2 = 1) ∧
    (∀ h : Handler, (decodeOpcode op).handler = some h ↔ h.opcode = op) ∧
    ((decodeOpcode op).handler = none ↔ op ∉ definedOpcodes)

/-- 30_encoding.md R92, R93 (values of D11): every byte but the eleven is an unknown opcode, whatever follows it, and
245 bytes are. -/
def Obligations.EveryOtherByteIsAnUnknownOpcode : Prop :=
  (∀ (op : Byte) (rest : List Byte), decode (op :: rest) = .error (.unknownOpcode op) ↔ op ∉ definedOpcodes) ∧
  ((List.range 256).filter fun n => decide (BitVec.ofNat 8 n ∉ definedOpcodes)).length = 245

/-- 30_encoding.md R82 (decision D21): opcode bit 5 has no effect on the operand count or the sets-pc bit. -/
def Obligations.ReservedOpcodeBitIsIgnored : Prop :=
  ∀ op : Byte,
    (decodeOpcode (op ^^^ 0x20)).operandCount = (decodeOpcode op).operandCount ∧
    (decodeOpcode (op ^^^ 0x20)).setsPc = (decodeOpcode op).setsPc

/-! ### The engine -/

/-- When the bytes at pc are the encoding of `i`, a step is `exec i` (40_engine.md R110, R112). `exec` itself moves
pc and takes the faults, so the step adds nothing around it. -/
def Obligations.StepRunsTheInstructionAtPc : Prop :=
  ∀ (s : State) (i : Instr),
    s.run = .running →
    s.pc.toNat + (encode i).length ≤ 256 →
    (∀ k (hk : k < (encode i).length), s.mem.read (s.pc.toNat + k) = (encode i)[k]) →
    step s = exec i s

/-- An instruction stored at pc is what the next step runs (20_memory.md R63; storing is the model's
`storeAtFetch`, log 7). -/
def Obligations.StoredInstructionIsRunNext : Prop :=
  ∀ (s : State) (i : Instr),
    s.run = .running →
    s.mem.wf = true →
    s.pc.toNat + (encode i).length ≤ 256 →
    step (storeAtFetch (encode i) s) = exec i (storeAtFetch (encode i) s)

/-- The machine's step, which builds an instruction and dispatches it, equals the spec's own pseudocode of a step,
which fetches operands inside each handler (40_engine.md R110 with the handlers of files 41 to 44). -/
def Obligations.StepFollowsTheSpecsPseudocode : Prop :=
  ∀ s : State, step s = Reference.step s

/-- 40_engine.md R118, 10_state.md R31 (decision D24): no step is enabled in HALTED or FAULTED. That this is a
host-level fault is the model's choice (log 3). -/
def Obligations.NoStepAfterHaltOrFault : Prop :=
  ∀ s : State,
    (s.run = .halted → step s = .fault .haltedNoStep) ∧ (s.run = .faulted → step s = .fault .faultedNoStep)

/-- A RUNNING block always has a next state: the decoder is total, every instruction has an effect, and a fault of
the spec is a next state (30_encoding.md R93, 60_exceptions.md R213; log 3). -/
def Obligations.RunningBlockAlwaysSteps : Prop :=
  ∀ s : State, s.run = .running → ∃ t, step s = .next t

/-- 60_exceptions.md R213, 40_engine.md R110, R112: every instruction answers a next state, for all operand bytes and
from every state. That a fault of the spec counts as a next state is the model's reading (log 3, DEDUCED), and that
`exec` does not look at the run state, so that the claim covers HALTED and FAULTED too, is the model's choice (log 4,
DESIGN CHOICE); there `step` runs no instruction (`NoStepAfterHaltOrFault`). -/
def Obligations.EveryInstructionAnswersANextState : Prop :=
  ∀ (i : Instr) (s : State), ∃ t, exec i s = .next t

/-- 40_engine.md R111 (the recorded opcode is decision D23): a fetch at 256 or above raises OutOfBounds. -/
def Obligations.FetchPastMemoryFaults : Prop :=
  ∀ s : State, s.run = .running → 256 ≤ s.pc.toNat → step s = .next (afterFault .outOfBounds 0 s)

/-- 40_engine.md R116: the unknown-opcode cycle, under both policies. -/
def Obligations.UnknownOpcodeFollowsThePolicy : Prop :=
  ∀ (s : State) (op : Byte),
    s.run = .running →
    s.pc.toNat < 256 →
    s.mem.read s.pc.toNat = op →
    op ∉ definedOpcodes →
    (s.strictOpcodes = false → op.toNat / 16 % 2 = 0 →
      step s = .next { s with pc := BitVec.ofNat 9 (s.pc.toNat + op.toNat / 64 + 1) }) ∧
    (s.strictOpcodes = false → op.toNat / 16 % 2 = 1 → step s = .next s) ∧
    (s.strictOpcodes = true → step s = .next (afterFault .unknownOpcode op s))

/-- 40_engine.md R117, R121: under the permissive policy an unknown opcode with bit 4 = 1 repeats forever, with no
state change. -/
def Obligations.UnknownOpcodeWithBitFourHangs : Prop :=
  ∀ s : State,
    s.run = .running →
    s.strictOpcodes = false →
    s.pc.toNat < 256 →
    s.mem.read s.pc.toNat ∉ definedOpcodes →
    (s.mem.read s.pc.toNat).toNat / 16 % 2 = 1 →
    (∀ n, Host.Core.run Sys2Proof.core n s = .next s) ∧ Hangs s

/-- 30_encoding.md R85, 20_memory.md R51 (decision D4), 60_exceptions.md R212 item 3: a defined opcode whose operand
bytes run past 255 raises OutOfBounds, whatever the operand bytes that do exist. -/
def Obligations.OperandPastMemoryFaults : Prop :=
  ∀ (s : State) (op : Byte),
    s.run = .running →
    s.pc.toNat < 256 →
    s.mem.read s.pc.toNat = op →
    op ∈ definedOpcodes →
    256 ≤ s.pc.toNat + op.toNat / 64 →
    step s = .next (afterFault .outOfBounds op s)

/-- 40_engine.md R120: from RUNNING a step leads to RUNNING, to HALTED by a HLT opcode (0x01 is D11's value), or to
FAULTED with a recorded kind. -/
def Obligations.RunStopsOnlyByHltOrFault : Prop :=
  ∀ s t : State,
    s.run = .running →
    step s = .next t →
    t.run = .running ∨
    (t.run = .halted ∧ s.pc.toNat < 256 ∧ s.mem.read s.pc.toNat = 0x01) ∨
    (t.run = .faulted ∧ ∃ k, t.faultKind = some k)

/-- 40_engine.md R119: after a faulting step no step is enabled, and the faulting instruction has changed nothing but
`run` and the fault record. -/
def Obligations.FaultedIsTerminalAndPrecise : Prop :=
  ∀ s t : State,
    s.run = .running →
    step s = .next t →
    t.run = .faulted →
    (∀ u, step t ≠ .next u) ∧
    t = { s with run := .faulted, faultKind := t.faultKind, faultPc := t.faultPc, faultOpcode := t.faultOpcode }

/-- 60_exceptions.md R212 (decision D9), R213: the first failing check of the spec's list decides the fault, and the
record holds its kind, the step's pc and the fetched opcode. If none fails the step does not fault. -/
def Obligations.FirstFailingCheckDecidesTheFault : Prop :=
  ∀ s t : State,
    s.run = .running →
    step s = .next t →
    (∀ k, firstFault s = some k → t = afterFault k s.opcodeToRecord s) ∧
    (firstFault s = none → t.run ≠ .faulted)

/-- 40_engine.md R113: after a step that does not fault, bit 4 of the opcode says whether pc advances by bits 7:6 plus
1, without wrapping; otherwise pc is where the handler left it, and only CALL and RET write it. -/
def Obligations.PcAdvanceFollowsTheOpcodeBits : Prop :=
  ∀ (s t : State) (op : Byte),
    s.run = .running →
    s.pc.toNat < 256 →
    s.mem.read s.pc.toNat = op →
    step s = .next t →
    t.run ≠ .faulted →
    (op.toNat / 16 % 2 = 0 → t.pc.toNat = s.pc.toNat + op.toNat / 64 + 1) ∧
    (op.toNat / 16 % 2 = 1 → op ≠ 0x50 → op ≠ 0x11 → t.pc = s.pc) ∧
    (op = 0x50 → ∃ r : Fin 8, (s.mem.read (s.pc.toNat + 1)).toNat = r.val ∧ t.pc = (t.x[r]).setWidth 9) ∧
    (op = 0x11 → t.pc = (s.mem.read (s.x[7]).toNat).setWidth 9)

/-- Every step keeps a state legal: memory canonical, pc in 0..259 (40_engine.md R114), a legal halted pc, and a fault
record that is clear until a fault and names the step's pc and a kind a step can raise after it (10_state.md R33,
60_exceptions.md R210, R213). -/
def Obligations.StepKeepsTheStateLegal : Prop :=
  ∀ s t : State, s.Inv → step s = .next t → t.Inv

/-- The reset state is legal. -/
def Obligations.ResetStateIsLegal : Prop := State.reset.Inv

/-! ### The instructions -/

/-- 41_load_print_halt.md R130: encoding, faults in order, result and pc. -/
def Obligations.LdiLoadsItsImmediate : Prop :=
  ∀ (s : State) (a imm8 : Byte),
    encode (.ldi a imm8) = [0b10000010, a, imm8] ∧
    (256 ≤ s.pc.toNat + 2 → exec (.ldi a imm8) s = .next (afterFault .outOfBounds 0x82 s)) ∧
    (s.pc.toNat + 2 < 256 → 8 ≤ a.toNat → exec (.ldi a imm8) s = .next (afterFault .invalidRegister 0x82 s)) ∧
    (s.pc.toNat + 2 < 256 → ∀ r : Fin 8, a.toNat = r.val →
      exec (.ldi a imm8) s = .next { s with x := s.x.set r imm8, pc := s.pc + 3 })

/-- 41_load_print_halt.md R131: encoding (the byte is D11's value, log 8), faults in order, event and pc. -/
def Obligations.PrnEmitsItsRegister : Prop :=
  ∀ (s : State) (a : Byte),
    encode (.prn a) = [0b01000111, a] ∧
    (256 ≤ s.pc.toNat + 1 → exec (.prn a) s = .next (afterFault .outOfBounds 0x47 s)) ∧
    (s.pc.toNat + 1 < 256 → 8 ≤ a.toNat → exec (.prn a) s = .next (afterFault .invalidRegister 0x47 s)) ∧
    (s.pc.toNat + 1 < 256 → ∀ r : Fin 8, a.toNat = r.val →
      exec (.prn a) s = .next { s with out := s.out ++ [s.x[r]], pc := s.pc + 2 })

/-- 41_load_print_halt.md R132. That pc advances by 1 is conflict C1 and decision D10 (log 17). -/
def Obligations.HltHaltsAndAdvances : Prop :=
  ∀ s : State, encode .hlt = [0b00000001] ∧ exec .hlt s = .next { s with run := .halted, pc := s.pc + 1 }

/-- 42_alu.md R150: encoding (the byte is D11's value, log 8), faults in order, result and pc. -/
def Obligations.AddStoresTheSumModulo256 : Prop :=
  ∀ (s : State) (a b : Byte),
    encode (.add a b) = [0b10100000, a, b] ∧
    (256 ≤ s.pc.toNat + 2 → exec (.add a b) s = .next (afterFault .outOfBounds 0xA0 s)) ∧
    (s.pc.toNat + 2 < 256 → (8 ≤ a.toNat ∨ 8 ≤ b.toNat) →
      exec (.add a b) s = .next (afterFault .invalidRegister 0xA0 s)) ∧
    (s.pc.toNat + 2 < 256 → ∀ ra rb : Fin 8, a.toNat = ra.val → b.toNat = rb.val →
      exec (.add a b) s = .next
        { s with x := s.x.set ra (BitVec.ofNat 8 (((s.x[ra]).toNat + (s.x[rb]).toNat) % 256)), pc := s.pc + 3 })

/-- 42_alu.md R151: encoding (the byte is D11's value, log 8), faults in order, result and pc. The
difference is written without negative numbers: 256 is added before it is reduced. -/
def Obligations.SubStoresTheDifferenceModulo256 : Prop :=
  ∀ (s : State) (a b : Byte),
    encode (.sub a b) = [0b10100001, a, b] ∧
    (256 ≤ s.pc.toNat + 2 → exec (.sub a b) s = .next (afterFault .outOfBounds 0xA1 s)) ∧
    (s.pc.toNat + 2 < 256 → (8 ≤ a.toNat ∨ 8 ≤ b.toNat) →
      exec (.sub a b) s = .next (afterFault .invalidRegister 0xA1 s)) ∧
    (s.pc.toNat + 2 < 256 → ∀ ra rb : Fin 8, a.toNat = ra.val → b.toNat = rb.val →
      exec (.sub a b) s = .next
        { s with x := s.x.set ra (BitVec.ofNat 8 ((256 + (s.x[ra]).toNat - (s.x[rb]).toNat) % 256)), pc := s.pc + 3 })

/-- 42_alu.md R152: encoding (the byte is D11's value, log 8), faults in order, result and pc. -/
def Obligations.MulStoresTheProductModulo256 : Prop :=
  ∀ (s : State) (a b : Byte),
    encode (.mul a b) = [0b10100010, a, b] ∧
    (256 ≤ s.pc.toNat + 2 → exec (.mul a b) s = .next (afterFault .outOfBounds 0xA2 s)) ∧
    (s.pc.toNat + 2 < 256 → (8 ≤ a.toNat ∨ 8 ≤ b.toNat) →
      exec (.mul a b) s = .next (afterFault .invalidRegister 0xA2 s)) ∧
    (s.pc.toNat + 2 < 256 → ∀ ra rb : Fin 8, a.toNat = ra.val → b.toNat = rb.val →
      exec (.mul a b) s = .next
        { s with x := s.x.set ra (BitVec.ofNat 8 (((s.x[ra]).toNat * (s.x[rb]).toNat) % 256)), pc := s.pc + 3 })

/-- 42_alu.md R153. That the quotient is the unsigned truncated one is decision D2 (log 11). -/
def Obligations.DivStoresTheTruncatedQuotient : Prop :=
  ∀ (s : State) (a b : Byte),
    encode (.div a b) = [0b10100011, a, b] ∧
    (256 ≤ s.pc.toNat + 2 → exec (.div a b) s = .next (afterFault .outOfBounds 0xA3 s)) ∧
    (s.pc.toNat + 2 < 256 → (8 ≤ a.toNat ∨ 8 ≤ b.toNat) →
      exec (.div a b) s = .next (afterFault .invalidRegister 0xA3 s)) ∧
    (s.pc.toNat + 2 < 256 → ∀ ra rb : Fin 8, a.toNat = ra.val → b.toNat = rb.val →
      (s.x[rb] = 0 → exec (.div a b) s = .next (afterFault .divisionByZero 0xA3 s)) ∧
      (s.x[rb] ≠ 0 → exec (.div a b) s = .next
        { s with x := s.x.set ra (BitVec.ofNat 8 ((s.x[ra]).toNat / (s.x[rb]).toNat)), pc := s.pc + 3 }))

/-- 43_stack.md R170 (the bound is decision D12, R7 as operand D22): the address stored to is the decremented `sp`,
and the value is the operand register read after the decrement. The stored byte is stated for canonical memories
(`StepKeepsTheStateLegal`). -/
def Obligations.PushStoresBelowTheStackPointer : Prop :=
  ∀ (s : State) (a : Byte),
    encode (.push a) = [0b01000101, a] ∧
    (256 ≤ s.pc.toNat + 1 → exec (.push a) s = .next (afterFault .outOfBounds 0x45 s)) ∧
    (s.pc.toNat + 1 < 256 → 8 ≤ a.toNat → exec (.push a) s = .next (afterFault .invalidRegister 0x45 s)) ∧
    (s.pc.toNat + 1 < 256 → ∀ r : Fin 8, a.toNat = r.val →
      (s.x[7] = 0 → exec (.push a) s = .next (afterFault .stackOverflow 0x45 s)) ∧
      (s.x[7] ≠ 0 → ∃ t, exec (.push a) s = .next t ∧
        t = { s with x := s.x.set 7 (s.x[7] - 1), pc := s.pc + 2, mem := t.mem } ∧
        (∀ b, b ≠ (s.x[7] - 1).toNat → t.mem.read b = s.mem.read b) ∧
        (s.mem.wf = true → t.mem.read (s.x[7] - 1).toNat = (s.x.set 7 (s.x[7] - 1))[r])))

/-- 43_stack.md R171 (the bound is decision D12, R7 as operand D22): the top byte goes to the operand register, then
`sp`, read after that write, is incremented. No memory byte changes. -/
def Obligations.PopLoadsTheTopOfTheStack : Prop :=
  ∀ (s : State) (a : Byte),
    encode (.pop a) = [0b01000110, a] ∧
    (256 ≤ s.pc.toNat + 1 → exec (.pop a) s = .next (afterFault .outOfBounds 0x46 s)) ∧
    (s.pc.toNat + 1 < 256 → 8 ≤ a.toNat → exec (.pop a) s = .next (afterFault .invalidRegister 0x46 s)) ∧
    (s.pc.toNat + 1 < 256 → ∀ r : Fin 8, a.toNat = r.val →
      (s.x[7] = 255 → exec (.pop a) s = .next (afterFault .stackUnderflow 0x46 s)) ∧
      (s.x[7] ≠ 255 → ∀ v, v = s.mem.read (s.x[7]).toNat →
        exec (.pop a) s = .next
          { s with x := (s.x.set r v).set 7 ((s.x.set r v)[7] + 1), pc := s.pc + 2 }))

/-- 44_call_return.md R190 (decisions D5, D12, D22): the return address `pc + 2` is stored at the decremented `sp`,
and pc becomes the operand register read after the push. -/
def Obligations.CallPushesTheReturnAddressAndJumps : Prop :=
  ∀ (s : State) (a : Byte),
    encode (.call a) = [0b01010000, a] ∧
    (256 ≤ s.pc.toNat + 1 → exec (.call a) s = .next (afterFault .outOfBounds 0x50 s)) ∧
    (s.pc.toNat + 1 < 256 → 8 ≤ a.toNat → exec (.call a) s = .next (afterFault .invalidRegister 0x50 s)) ∧
    (s.pc.toNat + 1 < 256 → ∀ r : Fin 8, a.toNat = r.val →
      (s.x[7] = 0 → exec (.call a) s = .next (afterFault .stackOverflow 0x50 s)) ∧
      (s.x[7] ≠ 0 → s.pc.toNat = 254 → exec (.call a) s = .next (afterFault .outOfBounds 0x50 s)) ∧
      (s.x[7] ≠ 0 → s.pc.toNat ≠ 254 → ∃ t, exec (.call a) s = .next t ∧
        t = { s with
              x := s.x.set 7 (s.x[7] - 1)
              pc := ((s.x.set 7 (s.x[7] - 1))[r]).setWidth 9
              mem := t.mem } ∧
        (∀ b, b ≠ (s.x[7] - 1).toNat → t.mem.read b = s.mem.read b) ∧
        (s.mem.wf = true → (t.mem.read (s.x[7] - 1).toNat).toNat = s.pc.toNat + 2)))

/-- 44_call_return.md R191 (the bound is decision D12): the top byte becomes pc, and `sp` is incremented. -/
def Obligations.RetPopsThePc : Prop :=
  ∀ s : State,
    encode .ret = [0b00010001] ∧
    (s.x[7] = 255 → exec .ret s = .next (afterFault .stackUnderflow 0x11 s)) ∧
    (s.x[7] ≠ 255 → exec .ret s = .next
      { s with x := s.x.set 7 (s.x[7] + 1), pc := (s.mem.read (s.x[7]).toNat).setWidth 9 })

/-! ### The integer ALU -/

/-- 42_alu.md R154 (decision D27 for the last line). -/
def Obligations.AluComputesItsFourOperations : Prop :=
  ∀ a b : Byte,
    alu .add a b = .ok (BitVec.ofNat 8 ((a.toNat + b.toNat) % 256)) ∧
    alu .sub a b = .ok (BitVec.ofInt 8 (((a.toNat : Int) - (b.toNat : Int)) % 256)) ∧
    alu .mul a b = .ok (BitVec.ofNat 8 ((a.toNat * b.toNat) % 256)) ∧
    (b = 0 → alu .div a b = .error .divisionByZero) ∧
    (b ≠ 0 → alu .div a b = .ok (BitVec.ofNat 8 (a.toNat / b.toNat))) ∧
    alu .other a b = .error .unsupportedOperation

/-- 42_alu.md R155: ADD, SUB and MUL agree with integer arithmetic whenever the exact result fits, always agree with
two's-complement arithmetic, and a quotient never exceeds the dividend. -/
def Obligations.AluAgreesWithIntegerArithmetic : Prop :=
  ∀ a b v : Byte,
    (alu .add a b = .ok v → v = a + b ∧ (a.toNat + b.toNat < 256 → v.toNat = a.toNat + b.toNat)) ∧
    (alu .sub a b = .ok v → v = a - b ∧ (b.toNat ≤ a.toNat → v.toNat = a.toNat - b.toNat)) ∧
    (alu .mul a b = .ok v → v = a * b ∧ (a.toNat * b.toNat < 256 → v.toNat = a.toNat * b.toNat)) ∧
    (alu .div a b = .ok v → v.toNat = a.toNat / b.toNat ∧ v.toNat ≤ a.toNat)

/-! ### Frames -/

/-- An instruction changes no register but its destination, and R7 where it moves the stack. -/
def Obligations.RegistersChangeOnlyWhereNamed : Prop :=
  ∀ (i : Instr) (s t : State) (q : Fin 8), exec i s = .next t → ¬ mayChange i q → t.x[q] = s.x[q]

/-- PUSH and CALL store one byte, at the `sp` that `decrementSp` leaves, and change no other byte; if they raise
StackOverflow they store nothing. Every other instruction stores nothing. -/
def Obligations.MemoryChangesOnlyWhereStored : Prop :=
  ∀ (i : Instr) (s t : State), exec i s = .next t →
    match i with
    | .push _ | .call _ =>
      (∀ u, decrementSp s = .ok u → ∀ b, b ≠ u.sp.toNat → t.mem.read b = s.mem.read b) ∧
      (∀ k, decrementSp s = .error k → ∀ b, t.mem.read b = s.mem.read b)
    | .ldi _ _ | .prn _ | .hlt | .add _ _ | .sub _ _ | .mul _ _ | .div _ _ | .pop _ | .ret =>
      ∀ b, t.mem.read b = s.mem.read b

/-- An instruction leaves the configuration input alone; only PRN adds to the output; only HLT and a fault change the
run state; only a fault writes the fault record. -/
def Obligations.StatusAndOutputFrame : Prop :=
  ∀ (i : Instr) (s t : State), exec i s = .next t →
    t.strictOpcodes = s.strictOpcodes ∧
    ((∀ a, i ≠ .prn a) → t.out = s.out) ∧
    (t.run = s.run ∨ t.run = .faulted ∨ (t.run = .halted ∧ i = .hlt)) ∧
    ((t.faultKind = s.faultKind ∧ t.faultPc = s.faultPc ∧ t.faultOpcode = s.faultOpcode) ∨
      ((∃ k, t.faultKind = some k) ∧ t.run = .faulted ∧ t.faultPc = s.pc ∧ t.faultOpcode = i.opcode))

/-! ### Rules about the whole machine -/

/-- 10_state.md R21: in a step, only PUSH (0x45) and CALL (0x50) write memory, one byte, below the stack pointer. -/
def Obligations.OnlyPushAndCallWriteMemory : Prop :=
  ∀ s t : State, step s = .next t → t.mem ≠ s.mem →
    s.pc.toNat < 256 ∧
    (s.mem.read s.pc.toNat = 0x45 ∨ s.mem.read s.pc.toNat = 0x50) ∧
    ∀ b, b ≠ (s.x[7] - 1).toNat → t.mem.read b = s.mem.read b

/-- 10_state.md R34, 41_load_print_halt.md R131: a step leaves the trace as it was, or is a PRN (0x47) and adds its
register's value at the end. -/
def Obligations.OutputGrowsOnlyByPrn : Prop :=
  ∀ s t : State, step s = .next t →
    t.out = s.out ∨
    (s.pc.toNat + 1 < 256 ∧ s.mem.read s.pc.toNat = 0x47 ∧
      ∃ r : Fin 8, (s.mem.read (s.pc.toNat + 1)).toNat = r.val ∧ t.out = s.out ++ [s.x[r]])

/-- 10_state.md R35: `STRICT_OPCODES` is fixed for the whole run (that it is carried in State is log 2). -/
def Obligations.PolicyIsFixedForTheRun : Prop :=
  ∀ (n : Nat) (s t : State), Host.Core.run Sys2Proof.core n s = .next t → t.strictOpcodes = s.strictOpcodes

/-- 60_exceptions.md R210, 42_alu.md R154 (decision D27): no step raises UnsupportedOperation. -/
def Obligations.NoStepRaisesUnsupportedOperation : Prop :=
  ∀ s t : State, step s = .next t → t.faultKind = some .unsupportedOperation →
    s.faultKind = some .unsupportedOperation

/-- 10_state.md R27, 70_reset_and_hazards.md R242: an instruction's result does not depend on a register it neither
names nor uses as the stack pointer. Whatever that register holds, it keeps, and all else comes out the same. -/
def Obligations.UnnamedRegisterHasNoInfluence : Prop :=
  ∀ (i : Instr) (s t : State) (r : Fin 8) (v : Byte),
    r ≠ 7 →
    (∀ b ∈ i.registerBytes, b.toNat ≠ r.val) →
    exec i s = .next t →
    exec i { s with x := s.x.set r v } = .next { t with x := t.x.set r v }

/-! ### Laws of instruction pairs -/

/-- 41_load_print_halt.md R130: a value loaded and then printed comes out exactly. -/
def Obligations.LoadThenPrintEmitsTheValue : Prop :=
  ∀ (s : State) (a imm8 : Byte), a.toNat < 8 → s.pc.toNat + 4 < 256 →
    ∃ t u, exec (.ldi a imm8) s = .next t ∧ exec (.prn a) t = .next u ∧ u.out = s.out ++ [imm8]

/-- 43_stack.md R172: PUSH then POP of one register restores it and the stack pointer, R7 included, if nothing in
between writes the pushed cell or R7. `m` is the state the POP finds. -/
def Obligations.PushThenPopRestoresTheRegister : Prop :=
  ∀ (s : State) (a : Byte) (r : Fin 8),
    a.toNat = r.val → s.pc.toNat + 1 < 256 → s.x[7] ≠ 0 → s.mem.wf = true →
    ∃ t, exec (.push a) s = .next t ∧
      ∀ m : State, m.x[7] = t.x[7] → m.mem.read (t.x[7]).toNat = t.mem.read (t.x[7]).toNat →
        m.pc.toNat + 1 < 256 →
        ∃ u, exec (.pop a) m = .next u ∧ u.x[r] = s.x[r] ∧ u.x[7] = s.x[7]

/-- 44_call_return.md R192: CALL at p <= 253 with `sp` >= 1, then RET with no other stack use in between, returns to
p + 2 with `sp` as before. `m` is the state the RET finds. -/
def Obligations.CallThenRetReturnsAfterTheCall : Prop :=
  ∀ (s : State) (a : Byte),
    a.toNat < 8 → s.pc.toNat ≤ 253 → s.x[7] ≠ 0 → s.mem.wf = true →
    ∃ t, exec (.call a) s = .next t ∧
      ∀ m : State, m.x[7] = t.x[7] → m.mem.read (t.x[7]).toNat = t.mem.read (t.x[7]).toNat →
        ∃ u, exec .ret m = .next u ∧ u.pc.toNat = s.pc.toNat + 2 ∧ u.x[7] = s.x[7]

/-- 20_memory.md R63, 70_reset_and_hazards.md R245 (decision D17): the step right after a PUSH or a CALL fetches the
byte it has just pushed, whatever that byte is and wherever among the fetched bytes it stands, opcode or operand. The
fetched bytes are given from the memory BEFORE the instruction and the one byte it stores: the operand register read
after the decrement (decision D22) for PUSH, the return address `pc + 2` for CALL. Memory is canonical
(`StepKeepsTheStateLegal`). -/
def Obligations.PushedOpcodeIsFetchedNext : Prop :=
  ∀ (s t : State) (a : Byte) (r : Fin 8),
    s.run = .running → s.mem.wf = true → a.toNat = r.val → s.x[7] ≠ 0 →
    (s.pc.toNat + 1 < 256 → exec (.push a) s = .next t →
      NextStepFetches (readAfterStore s.mem (s.x[7] - 1).toNat (s.x.set 7 (s.x[7] - 1))[r]) t) ∧
    (s.pc.toNat ≤ 253 → exec (.call a) s = .next t →
      NextStepFetches (readAfterStore s.mem (s.x[7] - 1).toNat (BitVec.ofNat 8 (s.pc.toNat + 2))) t)

/-! ### Memory, reset and ports -/

/-- 20_memory.md R51, R52 (decisions D4, D5): when a memory access completes and when it raises OutOfBounds. -/
def Obligations.MemoryAccessIsChecked : Prop :=
  ∀ (s : State) (addr v : Nat),
    (256 ≤ addr → memRead addr s = .error .outOfBounds ∧ memWrite addr v s = .error .outOfBounds) ∧
    (addr < 256 → memRead addr s = .ok (s.mem.read addr)) ∧
    (addr < 256 → 256 ≤ v → memWrite addr v s = .error .outOfBounds) ∧
    (addr < 256 → v < 256 → ∃ t, memWrite addr v s = .ok t)

/-- 20_memory.md R53 for the one cell and the rest of the state, R59 for the read-back: a write changes only its one
cell and nothing else of the state, and a later read of that cell gives the written byte. That memory is a canonical
list, which a write keeps so, is the model's own form (log 5, DEDUCED). -/
def Obligations.MemoryWriteChangesOneCell : Prop :=
  ∀ (s t : State) (addr v : Nat), s.mem.wf = true → memWrite addr v s = .ok t →
    t = { s with mem := t.mem } ∧
    t.mem.wf = true ∧
    (∃ w, memRead addr t = .ok w ∧ w.toNat = v) ∧
    ∀ b, b ≠ addr → memRead b t = memRead b s

/-- 70_reset_and_hazards.md R240, R241 (decisions D13, D14), 10_state.md R36: reset with any image of at most 256 bytes
and any values of the two OPEN parameters; a longer image is refused. -/
def Obligations.ResetLoadsTheImage : Prop :=
  ∀ (strict : Bool) (gpr : Vector Byte 7) (image : List Byte),
    (image.length ≤ 256 → ∃ s, resetWith strict gpr image = some s ∧
      s.mem.wf = true ∧
      (∀ a (h : a < image.length), s.mem.read a = image[a]) ∧
      (∀ a, image.length ≤ a → s.mem.read a = 0) ∧
      (∀ i : Fin 7, s.x[i.val] = gpr[i]) ∧ s.x[7] = 0xF4 ∧
      s.pc = 0 ∧ s.run = .running ∧
      s.faultKind = none ∧ s.faultPc = 0 ∧ s.faultOpcode = 0 ∧ s.out = [] ∧ s.strictOpcodes = strict) ∧
    (256 < image.length → resetWith strict gpr image = none)

/-- 10_state.md R26, R29: after any reset R7 is 0xF4, pc is 0 and the block runs. A PUSH then stores at 0xF3, below
`sp`; a POP reads the byte at 0xF4 and increments `sp` after it. -/
def Obligations.ResetSetsStackPointerAndPc : Prop :=
  ∀ (strict : Bool) (gpr : Vector Byte 7) (image : List Byte) (s : State),
    resetWith strict gpr image = some s →
    s.x[7] = 0xF4 ∧ s.pc = 0 ∧ s.run = .running ∧
    ∀ (a : Byte) (r : Fin 8), a.toNat = r.val →
      (∃ t, exec (.push a) s = .next t ∧ t.x[7] = 0xF3 ∧ t.mem.read 0xF3 = (s.x.set 7 0xF3)[r] ∧
        ∀ b, b ≠ 0xF3 → t.mem.read b = s.mem.read b) ∧
      (∃ u, exec (.pop a) s = .next u ∧ u.x[7] = (s.x.set r (s.mem.read 0xF4))[7] + 1 ∧
        (r ≠ 7 → u.x[r] = s.mem.read 0xF4))

/-- The reset state of the host's interface is the reset with the empty image, at the values the model names for the
two OPEN parameters (log 1, log 2: the model's choices). -/
def Obligations.ResetStateIsTheEmptyImageReset : Prop :=
  resetWith strictOpcodesDefault gprResetValues [] = some State.reset

/-- 00_scope.md R10, 10_state.md R31, R33, 60_exceptions.md R210 (decision D8): the codes the host reads. -/
def Obligations.PortCodesAreAsListed : Prop :=
  (∀ s : State, s.runStatePort =
    match s.run with
    | .running => 0
    | .halted => 1
    | .faulted => 2) ∧
  (∀ s : State, s.faultKindPort =
    match s.faultKind with
    | none => 0
    | some .outOfBounds => 1
    | some .invalidRegister => 2
    | some .unsupportedOperation => 3
    | some .divisionByZero => 4
    | some .unknownOpcode => 5
    | some .stackOverflow => 6
    | some .stackUnderflow => 7)
end

