-- ==== Sys2Proof/Laws/Decode.lean ====
section
/-! SUPPORT. The opcode table's laws, and the small lemmas of `decode`. -/

namespace Sys2Proof

theorem mem_all (h : Handler) : h ∈ Handler.all := by cases h <;> decide

/-- No two handlers share an opcode. -/
theorem opcode_injective {h k : Handler} (e : h.opcode = k.opcode) : h = k := by
  revert e; cases h <;> cases k <;> decide

@[simp] theorem handlerOf_opcode (h : Handler) : handlerOf h.opcode = some h := by cases h <;> decide

theorem opcode_of_handlerOf {op : Byte} {h : Handler} (e : handlerOf op = some h) : h.opcode = op := by
  simpa using List.find?_some e

/-- The opcode table has one row per handler: the whole byte selects it. -/
theorem handlerOf_eq_some_iff {op : Byte} {h : Handler} : handlerOf op = some h ↔ h.opcode = op :=
  ⟨opcode_of_handlerOf, fun e => e ▸ handlerOf_opcode h⟩

/-- How many operand bytes each defined instruction has (R90). -/
theorem operandCount_opcode (h : Handler) :
    operandCount h.opcode =
      match h with
      | .hlt | .ret => 0
      | .prn | .push | .pop | .call => 1
      | .ldi | .add | .sub | .mul | .div => 2 := by
  cases h <;> decide

/-- The sets-pc bit of each defined instruction (R90). -/
theorem setsPc_opcode (h : Handler) :
    setsPc h.opcode =
      match h with
      | .call | .ret => true
      | .ldi | .prn | .hlt | .add | .sub | .mul | .div | .push | .pop => false := by
  cases h <;> decide

@[simp] theorem decode_nil : decode [] = .error .noOpcode := rfl

/-- A known opcode: its operands decide. -/
theorem decode_known {op : Byte} {h : Handler} (e : handlerOf op = some h) (rest : List Byte) :
    decode (op :: rest) =
      match assemble h rest with
      | none => .error (.operandMissing op)
      | some found => .ok found := by
  simp only [decode, e] <;> rfl

theorem decode_unknown {op : Byte} (e : handlerOf op = none) (rest : List Byte) :
    decode (op :: rest) = .error (.unknownOpcode op) := by
  simp only [decode, e]

/-- `assemble` succeeds exactly when the handler's operand bytes are there. -/
theorem assemble_isSome (h : Handler) (rest : List Byte) :
    (assemble h rest).isSome = decide (operandCount h.opcode ≤ rest.length) := by
  rw [operandCount_opcode]
  rcases rest with _ | ⟨a, _ | ⟨b, rest⟩⟩ <;> cases h <;> simp [assemble]

/-- The handler that `assemble` was given is the instruction's. -/
theorem handler_of_assemble {h : Handler} {bytes rest : List Byte} {i : Instr}
    (e : assemble h bytes = some (i, rest)) : i.handler = h ∧ bytes = i.operandBytes ++ rest := by
  rcases bytes with _ | ⟨a, _ | ⟨b, bytes⟩⟩ <;> cases h <;> simp_all [assemble] <;>
    (obtain ⟨rfl, rfl⟩ := e; simp [Instr.handler, Instr.operandBytes])

end Sys2Proof
end

