-- ==== Sys2Proof/Laws/Memory.lean ====
section
/-! SUPPORT. The laws of the memory list: a read after a write, that every operation keeps the canonical form, and
that canonical memories with equal reads are equal. -/

namespace Sys2Proof.Machine

/-! ### Reading -/

@[simp] theorem read_nil (a : Nat) : Memory.read [] a = unlistedByte := rfl

/-- A memory in canonical form from `lo` up lists nothing below `lo`. -/
theorem read_below_of_wfFrom {m : Memory} {lo a : Nat} (h : Memory.wfFrom lo m = true) (ha : a < lo) :
    m.read a = unlistedByte := by
  induction m generalizing lo with
  | nil => rfl
  | cons c rest ih =>
    obtain ⟨b, w⟩ := c
    simp only [Memory.wfFrom, Bool.and_eq_true, decide_eq_true_eq] at h
    rw [Memory.read, if_neg (by omega)]
    exact ih h.2 (by omega)

/-- A canonical form from `lo` up is one from any lower address up. -/
theorem wfFrom_mono {m : Memory} {lo lo' : Nat} (h : Memory.wfFrom lo m = true) (hl : lo' ≤ lo) :
    Memory.wfFrom lo' m = true := by
  cases m with
  | nil => rfl
  | cons c rest =>
    obtain ⟨b, w⟩ := c
    simp only [Memory.wfFrom, Bool.and_eq_true, decide_eq_true_eq] at h ⊢
    exact ⟨⟨⟨by omega, h.1.1.2⟩, h.1.2⟩, h.2⟩

/-! ### Writing -/

/-- A read after a write, in a canonical memory. -/
theorem read_write_of_wfFrom {m : Memory} {lo : Nat} (h : Memory.wfFrom lo m = true) (a : Nat) (v : Byte) (b : Nat) :
    (m.write a v).read b = if a = b then v else m.read b := by
  induction m generalizing lo with
  | nil =>
    unfold Memory.write
    split <;> simp_all [Memory.read]
  | cons c rest ih =>
    obtain ⟨d, w⟩ := c
    simp only [Memory.wfFrom, Bool.and_eq_true, decide_eq_true_eq] at h
    have hbelow (e : Nat) (he : e ≤ d) : Memory.read rest e = unlistedByte :=
      read_below_of_wfFrom h.2 (Nat.lt_succ_of_le he)
    unfold Memory.write
    split
    · split
      · by_cases hab : a = b
        · subst hab
          rw [if_pos rfl, Memory.read, if_neg (by omega), hbelow a (by omega)]
          simp_all
        · rw [if_neg hab]
      · simp only [Memory.read]
    · split
      · subst a
        split
        · by_cases hdb : d = b
          · subst hdb
            rw [if_pos rfl, hbelow d (Nat.le_refl d)]
            simp_all
          · rw [if_neg hdb, Memory.read, if_neg hdb]
        · by_cases hdb : d = b <;> simp [Memory.read, hdb]
      · simp only [Memory.read, ih h.2]
        by_cases hdb : d = b
        · rw [if_pos hdb, if_pos hdb, if_neg (by omega)]
        · rw [if_neg hdb, if_neg hdb]

theorem read_write {m : Memory} (h : m.wf = true) (a : Nat) (v : Byte) (b : Nat) :
    (m.write a v).read b = if a = b then v else m.read b := read_write_of_wfFrom h a v b

/-- A write leaves every other address alone, in any memory list. -/
theorem read_write_other (m : Memory) {a b : Nat} (v : Byte) (hab : a ≠ b) : (m.write a v).read b = m.read b := by
  induction m with
  | nil =>
    unfold Memory.write
    split <;> simp [Memory.read, hab]
  | cons c rest ih =>
    obtain ⟨d, w⟩ := c
    unfold Memory.write
    split
    · split <;> simp [Memory.read, hab]
    · split
      · subst a
        split <;> simp [Memory.read, hab]
      · simp only [Memory.read, ih]

theorem wfFrom_write {m : Memory} {lo a : Nat} (h : Memory.wfFrom lo m = true) (hl : lo ≤ a) (ha : a < Config.memSize)
    (v : Byte) : Memory.wfFrom lo (m.write a v) = true := by
  induction m generalizing lo with
  | nil =>
    unfold Memory.write
    split <;> simp_all [Memory.wfFrom]
  | cons c rest ih =>
    obtain ⟨d, w⟩ := c
    have h' := h
    simp only [Memory.wfFrom, Bool.and_eq_true, decide_eq_true_eq] at h'
    unfold Memory.write
    split
    · split
      · exact h
      · simp only [Memory.wfFrom, Bool.and_eq_true, decide_eq_true_eq]
        exact ⟨⟨⟨hl, ha⟩, ‹_›⟩, ⟨⟨by omega, h'.1.1.2⟩, h'.1.2⟩, h'.2⟩
    · split
      · subst a
        split
        · exact wfFrom_mono h'.2 (by omega)
        · simp only [Memory.wfFrom, Bool.and_eq_true, decide_eq_true_eq]
          exact ⟨⟨⟨hl, ha⟩, ‹_›⟩, h'.2⟩
      · simp only [Memory.wfFrom, Bool.and_eq_true, decide_eq_true_eq]
        exact ⟨h'.1, ih h'.2 (by omega)⟩

/-- A write inside memory keeps the canonical form. -/
theorem wf_write {m : Memory} (h : m.wf = true) {a : Nat} (ha : a < Config.memSize) (v : Byte) :
    (m.write a v).wf = true := wfFrom_write h (Nat.zero_le a) ha v

/-! ### Loading bytes -/

/-- Loading bytes keeps the canonical form. -/
theorem wf_loadBytes {m : Memory} (h : m.wf = true) (a : Nat) (bytes : List Byte) :
    (m.loadBytes a bytes).wf = true := by
  induction bytes generalizing m a with
  | nil => exact h
  | cons v rest ih =>
    unfold Memory.loadBytes
    split
    · exact ih (wf_write h ‹_› v) (a + 1)
    · exact ih h (a + 1)

/-- A read below the first loaded address is as before. -/
theorem read_loadBytes_below {m : Memory} (h : m.wf = true) {a b : Nat} (hb : b < a) (bytes : List Byte) :
    (m.loadBytes a bytes).read b = m.read b := by
  induction bytes generalizing m a with
  | nil => rfl
  | cons v rest ih =>
    unfold Memory.loadBytes
    split
    · rw [ih (wf_write h ‹_› v) (by omega), read_write h, if_neg (by omega)]
    · exact ih h (by omega)

/-- The k-th loaded byte, if it lies in memory. -/
theorem read_loadBytes_at {m : Memory} (h : m.wf = true) (a : Nat) (bytes : List Byte) {k : Nat}
    (hk : k < bytes.length) (ha : a + k < Config.memSize) : (m.loadBytes a bytes).read (a + k) = bytes[k] := by
  induction bytes generalizing m a k with
  | nil => exact absurd hk (Nat.not_lt_zero k)
  | cons v rest ih =>
    have ha' : a < Config.memSize := by omega
    rw [Memory.loadBytes, if_pos ha']
    have hw := wf_write h ha' v
    cases k with
    | zero =>
      rw [read_loadBytes_below hw (by omega), read_write h, if_pos (by omega)]
      rfl
    | succ k =>
      have := ih hw (a + 1) (k := k) (by simpa using hk) (by omega)
      rw [show a + (k + 1) = a + 1 + k by omega, this]
      rfl

/-- A read past the last loaded address is as before. -/
theorem read_loadBytes_above {m : Memory} (h : m.wf = true) {a b : Nat} (bytes : List Byte)
    (hb : a + bytes.length ≤ b) : (m.loadBytes a bytes).read b = m.read b := by
  induction bytes generalizing m a with
  | nil => rfl
  | cons v rest ih =>
    have hb' : a + 1 + rest.length ≤ b := by simp only [List.length_cons] at hb; omega
    unfold Memory.loadBytes
    split
    · rw [ih (wf_write h ‹_› v) hb', read_write h, if_neg (by omega)]
    · exact ih h hb'

/-! ### Equal reads, equal memories -/

theorem eq_of_read_eq_of_wfFrom {m n : Memory} {lo : Nat} (hm : Memory.wfFrom lo m = true)
    (hn : Memory.wfFrom lo n = true) (h : ∀ a, m.read a = n.read a) : m = n := by
  induction m generalizing n lo with
  | nil =>
    cases n with
    | nil => rfl
    | cons c rest =>
      obtain ⟨d, w⟩ := c
      simp only [Memory.wfFrom, Bool.and_eq_true, decide_eq_true_eq] at hn
      have := h d
      simp only [Memory.read] at this
      exact absurd this.symm hn.1.2
  | cons c rest ih =>
    obtain ⟨d, w⟩ := c
    have hm' := hm
    simp only [Memory.wfFrom, Bool.and_eq_true, decide_eq_true_eq] at hm'
    cases n with
    | nil =>
      have := h d
      simp only [Memory.read] at this
      exact absurd this hm'.1.2
    | cons c' rest' =>
      obtain ⟨e, u⟩ := c'
      have hn' := hn
      simp only [Memory.wfFrom, Bool.and_eq_true, decide_eq_true_eq] at hn'
      have hde : d = e := by
        rcases Nat.lt_trichotomy d e with hlt | heq | hgt
        · have := h d
          rw [Memory.read, if_pos rfl, Memory.read, if_neg (by omega), read_below_of_wfFrom hn'.2 (by omega)] at this
          exact absurd this hm'.1.2
        · exact heq
        · have := h e
          rw [Memory.read, if_neg (by omega), read_below_of_wfFrom hm'.2 (by omega), Memory.read, if_pos rfl] at this
          exact absurd this.symm hn'.1.2
      subst hde
      have hwu : w = u := by simpa [Memory.read] using h d
      subst hwu
      have : rest = rest' := by
        refine ih hm'.2 hn'.2 fun a => ?_
        by_cases had : d = a
        · subst had
          rw [read_below_of_wfFrom hm'.2 (by omega), read_below_of_wfFrom hn'.2 (by omega)]
        · simpa [Memory.read, had] using h a
      rw [this]

/-- Canonical memories that read the same everywhere are the same data. -/
theorem eq_of_read_eq {m n : Memory} (hm : m.wf = true) (hn : n.wf = true) (h : ∀ a, m.read a = n.read a) : m = n :=
  eq_of_read_eq_of_wfFrom hm hn h

/-- The memory of the reset state is canonical. -/
theorem wf_nil : Memory.wf [] = true := rfl

end Sys2Proof.Machine
end

