-- ==== Sys2Proof/Laws/State.lean ====
section
/-! SUPPORT. What each update of the state leaves in each field: one lemma per field per update. -/

namespace Sys2Proof.Machine

/-! ### setReg -/

@[simp] theorem setReg_mem (s : State) (r : Fin 8) (v : Byte) : (s.setReg r v).mem = s.mem := rfl
@[simp] theorem setReg_x (s : State) (r : Fin 8) (v : Byte) : (s.setReg r v).x = s.x.set r v := rfl
@[simp] theorem setReg_pc (s : State) (r : Fin 8) (v : Byte) : (s.setReg r v).pc = s.pc := rfl
@[simp] theorem setReg_run (s : State) (r : Fin 8) (v : Byte) : (s.setReg r v).run = s.run := rfl
@[simp] theorem setReg_faultKind (s : State) (r : Fin 8) (v : Byte) : (s.setReg r v).faultKind = s.faultKind := rfl
@[simp] theorem setReg_faultPc (s : State) (r : Fin 8) (v : Byte) : (s.setReg r v).faultPc = s.faultPc := rfl
@[simp] theorem setReg_faultOpcode (s : State) (r : Fin 8) (v : Byte) : (s.setReg r v).faultOpcode = s.faultOpcode := rfl
@[simp] theorem setReg_out (s : State) (r : Fin 8) (v : Byte) : (s.setReg r v).out = s.out := rfl
@[simp] theorem setReg_strictOpcodes (s : State) (r : Fin 8) (v : Byte) : (s.setReg r v).strictOpcodes = s.strictOpcodes := rfl

/-! ### setSp -/

@[simp] theorem setSp_mem (s : State) (v : Byte) : (s.setSp v).mem = s.mem := rfl
@[simp] theorem setSp_x (s : State) (v : Byte) : (s.setSp v).x = s.x.set 7 v := rfl
@[simp] theorem setSp_pc (s : State) (v : Byte) : (s.setSp v).pc = s.pc := rfl
@[simp] theorem setSp_run (s : State) (v : Byte) : (s.setSp v).run = s.run := rfl
@[simp] theorem setSp_faultKind (s : State) (v : Byte) : (s.setSp v).faultKind = s.faultKind := rfl
@[simp] theorem setSp_faultPc (s : State) (v : Byte) : (s.setSp v).faultPc = s.faultPc := rfl
@[simp] theorem setSp_faultOpcode (s : State) (v : Byte) : (s.setSp v).faultOpcode = s.faultOpcode := rfl
@[simp] theorem setSp_out (s : State) (v : Byte) : (s.setSp v).out = s.out := rfl
@[simp] theorem setSp_strictOpcodes (s : State) (v : Byte) : (s.setSp v).strictOpcodes = s.strictOpcodes := rfl

/-! ### incrementSp -/

@[simp] theorem incrementSp_mem (s : State) : (incrementSp s).mem = s.mem := rfl
@[simp] theorem incrementSp_x (s : State) : (incrementSp s).x = s.x.set 7 (s.x[7] + 1) := rfl
@[simp] theorem incrementSp_pc (s : State) : (incrementSp s).pc = s.pc := rfl
@[simp] theorem incrementSp_run (s : State) : (incrementSp s).run = s.run := rfl
@[simp] theorem incrementSp_faultKind (s : State) : (incrementSp s).faultKind = s.faultKind := rfl
@[simp] theorem incrementSp_faultPc (s : State) : (incrementSp s).faultPc = s.faultPc := rfl
@[simp] theorem incrementSp_faultOpcode (s : State) : (incrementSp s).faultOpcode = s.faultOpcode := rfl
@[simp] theorem incrementSp_out (s : State) : (incrementSp s).out = s.out := rfl
@[simp] theorem incrementSp_strictOpcodes (s : State) : (incrementSp s).strictOpcodes = s.strictOpcodes := rfl

/-! ### emit -/

@[simp] theorem emit_mem (s : State) (v : Byte) : (emit v s).mem = s.mem := rfl
@[simp] theorem emit_x (s : State) (v : Byte) : (emit v s).x = s.x := rfl
@[simp] theorem emit_pc (s : State) (v : Byte) : (emit v s).pc = s.pc := rfl
@[simp] theorem emit_run (s : State) (v : Byte) : (emit v s).run = s.run := rfl
@[simp] theorem emit_faultKind (s : State) (v : Byte) : (emit v s).faultKind = s.faultKind := rfl
@[simp] theorem emit_faultPc (s : State) (v : Byte) : (emit v s).faultPc = s.faultPc := rfl
@[simp] theorem emit_faultOpcode (s : State) (v : Byte) : (emit v s).faultOpcode = s.faultOpcode := rfl
@[simp] theorem emit_out (s : State) (v : Byte) : (emit v s).out = s.out ++ [v] := rfl
@[simp] theorem emit_strictOpcodes (s : State) (v : Byte) : (emit v s).strictOpcodes = s.strictOpcodes := rfl

/-! ### haltRun -/

@[simp] theorem haltRun_mem (s : State) : (haltRun s).mem = s.mem := rfl
@[simp] theorem haltRun_x (s : State) : (haltRun s).x = s.x := rfl
@[simp] theorem haltRun_pc (s : State) : (haltRun s).pc = s.pc := rfl
@[simp] theorem haltRun_run (s : State) : (haltRun s).run = .halted := rfl
@[simp] theorem haltRun_faultKind (s : State) : (haltRun s).faultKind = s.faultKind := rfl
@[simp] theorem haltRun_faultPc (s : State) : (haltRun s).faultPc = s.faultPc := rfl
@[simp] theorem haltRun_faultOpcode (s : State) : (haltRun s).faultOpcode = s.faultOpcode := rfl
@[simp] theorem haltRun_out (s : State) : (haltRun s).out = s.out := rfl
@[simp] theorem haltRun_strictOpcodes (s : State) : (haltRun s).strictOpcodes = s.strictOpcodes := rfl

/-! ### jumpTo -/

@[simp] theorem jumpTo_mem (s : State) (v : Byte) : (jumpTo v s).mem = s.mem := rfl
@[simp] theorem jumpTo_x (s : State) (v : Byte) : (jumpTo v s).x = s.x := rfl
@[simp] theorem jumpTo_pc (s : State) (v : Byte) : (jumpTo v s).pc = v.setWidth 9 := rfl
@[simp] theorem jumpTo_run (s : State) (v : Byte) : (jumpTo v s).run = s.run := rfl
@[simp] theorem jumpTo_faultKind (s : State) (v : Byte) : (jumpTo v s).faultKind = s.faultKind := rfl
@[simp] theorem jumpTo_faultPc (s : State) (v : Byte) : (jumpTo v s).faultPc = s.faultPc := rfl
@[simp] theorem jumpTo_faultOpcode (s : State) (v : Byte) : (jumpTo v s).faultOpcode = s.faultOpcode := rfl
@[simp] theorem jumpTo_out (s : State) (v : Byte) : (jumpTo v s).out = s.out := rfl
@[simp] theorem jumpTo_strictOpcodes (s : State) (v : Byte) : (jumpTo v s).strictOpcodes = s.strictOpcodes := rfl

/-! ### takeFault -/

@[simp] theorem takeFault_mem (s : State) (k : FaultKind) (op : Byte) : (takeFault k op s).mem = s.mem := rfl
@[simp] theorem takeFault_x (s : State) (k : FaultKind) (op : Byte) : (takeFault k op s).x = s.x := rfl
@[simp] theorem takeFault_pc (s : State) (k : FaultKind) (op : Byte) : (takeFault k op s).pc = s.pc := rfl
@[simp] theorem takeFault_run (s : State) (k : FaultKind) (op : Byte) : (takeFault k op s).run = .faulted := rfl
@[simp] theorem takeFault_faultKind (s : State) (k : FaultKind) (op : Byte) : (takeFault k op s).faultKind = some k := rfl
@[simp] theorem takeFault_faultPc (s : State) (k : FaultKind) (op : Byte) : (takeFault k op s).faultPc = s.pc := rfl
@[simp] theorem takeFault_faultOpcode (s : State) (k : FaultKind) (op : Byte) : (takeFault k op s).faultOpcode = op := rfl
@[simp] theorem takeFault_out (s : State) (k : FaultKind) (op : Byte) : (takeFault k op s).out = s.out := rfl
@[simp] theorem takeFault_strictOpcodes (s : State) (k : FaultKind) (op : Byte) : (takeFault k op s).strictOpcodes = s.strictOpcodes := rfl

/-! ### storeAtFetch -/

@[simp] theorem storeAtFetch_mem (s : State) (bytes : List Byte) : (storeAtFetch bytes s).mem = s.mem.loadBytes s.pc.toNat bytes := rfl
@[simp] theorem storeAtFetch_x (s : State) (bytes : List Byte) : (storeAtFetch bytes s).x = s.x := rfl
@[simp] theorem storeAtFetch_pc (s : State) (bytes : List Byte) : (storeAtFetch bytes s).pc = s.pc := rfl
@[simp] theorem storeAtFetch_run (s : State) (bytes : List Byte) : (storeAtFetch bytes s).run = s.run := rfl
@[simp] theorem storeAtFetch_faultKind (s : State) (bytes : List Byte) : (storeAtFetch bytes s).faultKind = s.faultKind := rfl
@[simp] theorem storeAtFetch_faultPc (s : State) (bytes : List Byte) : (storeAtFetch bytes s).faultPc = s.faultPc := rfl
@[simp] theorem storeAtFetch_faultOpcode (s : State) (bytes : List Byte) : (storeAtFetch bytes s).faultOpcode = s.faultOpcode := rfl
@[simp] theorem storeAtFetch_out (s : State) (bytes : List Byte) : (storeAtFetch bytes s).out = s.out := rfl
@[simp] theorem storeAtFetch_strictOpcodes (s : State) (bytes : List Byte) : (storeAtFetch bytes s).strictOpcodes = s.strictOpcodes := rfl

/-! ### autoAdvance -/

theorem autoAdvance_pc (op : Byte) (s : State) :
    (autoAdvance op s).pc = if setsPc op then s.pc else s.pc + BitVec.ofNat 9 (operandCount op + 1) := by
  unfold autoAdvance; split <;> rfl

@[simp] theorem autoAdvance_mem (op : Byte) (s : State) : (autoAdvance op s).mem = s.mem := by
  unfold autoAdvance; split <;> rfl
@[simp] theorem autoAdvance_x (op : Byte) (s : State) : (autoAdvance op s).x = s.x := by
  unfold autoAdvance; split <;> rfl
@[simp] theorem autoAdvance_run (op : Byte) (s : State) : (autoAdvance op s).run = s.run := by
  unfold autoAdvance; split <;> rfl
@[simp] theorem autoAdvance_faultKind (op : Byte) (s : State) : (autoAdvance op s).faultKind = s.faultKind := by
  unfold autoAdvance; split <;> rfl
@[simp] theorem autoAdvance_faultPc (op : Byte) (s : State) : (autoAdvance op s).faultPc = s.faultPc := by
  unfold autoAdvance; split <;> rfl
@[simp] theorem autoAdvance_faultOpcode (op : Byte) (s : State) : (autoAdvance op s).faultOpcode = s.faultOpcode := by
  unfold autoAdvance; split <;> rfl
@[simp] theorem autoAdvance_out (op : Byte) (s : State) : (autoAdvance op s).out = s.out := by
  unfold autoAdvance; split <;> rfl
@[simp] theorem autoAdvance_strictOpcodes (op : Byte) (s : State) : (autoAdvance op s).strictOpcodes = s.strictOpcodes := by
  unfold autoAdvance; split <;> rfl

/-! ### Register reads after a register write -/

theorem reg_setReg (s : State) (r q : Fin 8) (v : Byte) : (s.setReg r v).reg q = if r = q then v else s.reg q := by
  simp only [State.reg, State.setReg, Fin.getElem_fin, Vector.getElem_set, Fin.ext_iff]

@[simp] theorem reg_setReg_same (s : State) (r : Fin 8) (v : Byte) : (s.setReg r v).reg r = v := by
  simp [reg_setReg]

theorem reg_setReg_other (s : State) {r q : Fin 8} (v : Byte) (h : r ≠ q) : (s.setReg r v).reg q = s.reg q := by
  simp [reg_setReg, h]

@[simp] theorem sp_setSp (s : State) (v : Byte) : (s.setSp v).sp = v := reg_setReg_same s 7 v

theorem sp_eq (s : State) : s.sp = s.x[7] := rfl

end Sys2Proof.Machine
end

