-- ==== Sys2Proof/Laws/Ops.lean ====
section
/-! SUPPORT. For each shared operation, once, everything it can do. -/

namespace Sys2Proof.Machine

/-! ### Sequences of checks -/

@[simp] theorem except_ok_bind {ε α β : Type} (a : α) (f : α → Except ε β) : (Except.ok a >>= f) = f a := rfl

@[simp] theorem except_error_bind {ε α β : Type} (e : ε) (f : α → Except ε β) :
    ((Except.error e : Except ε α) >>= f) = .error e := rfl

@[simp] theorem except_pure {ε α : Type} (a : α) : (pure a : Except ε α) = .ok a := rfl

/-- A sequence succeeds exactly when both parts do. -/
theorem bind_eq_ok_iff {ε α β : Type} {m : Except ε α} {f : α → Except ε β} {b : β} :
    (m >>= f) = .ok b ↔ ∃ a, m = .ok a ∧ f a = .ok b := by
  cases m <;> simp

/-! ### The memory interface -/

theorem memRead_eq_ok_iff {addr : Nat} {s : State} {v : Byte} :
    memRead addr s = .ok v ↔ addr < Config.memSize ∧ v = s.mem.read addr := by
  unfold memRead
  split
  · simp; omega
  · simp [eq_comm]; omega

theorem memRead_inside {addr : Nat} (h : addr < Config.memSize) (s : State) :
    memRead addr s = .ok (s.mem.read addr) := memRead_eq_ok_iff.2 ⟨h, rfl⟩

theorem memRead_outside {addr : Nat} (h : Config.memSize ≤ addr) (s : State) :
    memRead addr s = .error .outOfBounds := if_pos h

theorem memWrite_eq_ok_iff {addr v : Nat} {s t : State} :
    memWrite addr v s = .ok t ↔
      addr < Config.memSize ∧ v < 256 ∧ t = { s with mem := s.mem.write addr (BitVec.ofNat 8 v) } := by
  unfold memWrite
  split
  · simp; omega
  · split
    · simp; omega
    · simp only [Except.ok.injEq]
      constructor
      · rintro rfl; exact ⟨by omega, by omega, rfl⟩
      · rintro ⟨-, -, rfl⟩; rfl

theorem memWrite_error {addr v : Nat} {s : State} {k : FaultKind} (h : memWrite addr v s = .error k) :
    k = .outOfBounds ∧ (Config.memSize ≤ addr ∨ 256 ≤ v) := by
  unfold memWrite at h
  split at h
  · exact ⟨by simpa using h.symm, .inl ‹_›⟩
  · split at h
    · exact ⟨by simpa using h.symm, .inr ‹_›⟩
    · simp at h

/-- A stack address and a byte always pass `memWrite`'s checks. -/
theorem memWrite_byte (a v : Byte) (s : State) :
    memWrite a.toNat v.toNat s = .ok { s with mem := s.mem.write a.toNat v } := by
  rw [memWrite_eq_ok_iff]
  exact ⟨a.isLt, v.isLt, by simp⟩

/-! ### Operands -/

theorem regIdx_eq_ok_iff {b : Byte} {r : Fin 8} : regIdx b = .ok r ↔ b.toNat = r.val := by
  unfold regIdx
  split
  · simp [Fin.ext_iff]
  · simp; omega

theorem regIdx_valid {b : Byte} {r : Fin 8} (h : b.toNat = r.val) : regIdx b = .ok r := regIdx_eq_ok_iff.2 h

theorem regIdx_invalid {b : Byte} (h : 8 ≤ b.toNat) : regIdx b = .error .invalidRegister := by
  unfold regIdx; rw [dif_neg (by omega)]

/-- A register byte either names a register or raises InvalidRegister. -/
theorem regIdx_cases (b : Byte) :
    (∃ r : Fin 8, b.toNat = r.val ∧ regIdx b = .ok r) ∨ (8 ≤ b.toNat ∧ regIdx b = .error .invalidRegister) := by
  by_cases h : b.toNat < 8
  · exact .inl ⟨⟨b.toNat, h⟩, rfl, regIdx_valid rfl⟩
  · exact .inr ⟨by omega, regIdx_invalid (by omega)⟩

theorem fetchOperands_zero {h : Handler} (hc : operandCount h.opcode = 0) (s : State) : fetchOperands h s = .ok () := by
  simp [fetchOperands, operandAddresses, hc]

/-- The operand bytes all lie in memory exactly when the last one does. -/
theorem fetchOperands_ok {h : Handler} {s : State} (hp : s.pc.toNat + operandCount h.opcode < 256) :
    fetchOperands h s = .ok () := by
  rw [fetchOperands, if_pos]
  simp only [operandAddresses, List.all_eq_true, List.mem_map, List.mem_range, decide_eq_true_eq]
  rintro _ ⟨k, hk, rfl⟩
  simp only [Config.memSize]
  omega

theorem fetchOperands_error {h : Handler} {s : State} (hc : 0 < operandCount h.opcode)
    (hp : 256 ≤ s.pc.toNat + operandCount h.opcode) : fetchOperands h s = .error .outOfBounds := by
  rw [fetchOperands, if_neg]
  simp only [operandAddresses, List.all_eq_true, List.mem_map, List.mem_range]
  intro hall
  have := of_decide_eq_true (hall _ ⟨operandCount h.opcode - 1, by omega, rfl⟩)
  simp only [Config.memSize] at this
  omega

/-- The operand fetch either passes or raises OutOfBounds. -/
theorem fetchOperands_cases (h : Handler) (s : State) :
    ((operandCount h.opcode = 0 ∨ s.pc.toNat + operandCount h.opcode < 256) ∧ fetchOperands h s = .ok ()) ∨
      (0 < operandCount h.opcode ∧ 256 ≤ s.pc.toNat + operandCount h.opcode ∧
        fetchOperands h s = .error .outOfBounds) := by
  by_cases hc : operandCount h.opcode = 0
  · exact .inl ⟨.inl hc, fetchOperands_zero hc s⟩
  · by_cases hp : s.pc.toNat + operandCount h.opcode < 256
    · exact .inl ⟨.inr hp, fetchOperands_ok hp⟩
    · exact .inr ⟨by omega, by omega, fetchOperands_error (by omega) (by omega)⟩

/-! ### The stack -/

theorem decrementSp_cases (s : State) :
    (s.sp = 0 ∧ decrementSp s = .error .stackOverflow) ∨ (s.sp ≠ 0 ∧ decrementSp s = .ok (s.setSp (s.sp - 1))) := by
  by_cases h : s.sp = 0
  · exact .inl ⟨h, if_pos h⟩
  · exact .inr ⟨h, if_neg h⟩

theorem topOfStack_cases (s : State) :
    (s.sp = 255 ∧ topOfStack s = .error .stackUnderflow) ∨
      (s.sp ≠ 255 ∧ topOfStack s = .ok (s.mem.read s.sp.toNat)) := by
  by_cases h : s.sp = 255
  · exact .inl ⟨h, if_pos h⟩
  · exact .inr ⟨h, by rw [topOfStack, if_neg h, memRead_inside s.sp.isLt]⟩

/-! ### The ALU -/

/-- The ALU faults only on a zero divisor, for its four operations. -/
theorem alu_error {op : AluOp} {a b : Byte} {k : FaultKind} (h : alu op a b = .error k) :
    (op = .div ∧ b.toNat = 0 ∧ k = .divisionByZero) ∨ (op = .other ∧ k = .unsupportedOperation) := by
  cases op with
  | add | sub | mul => simp [alu] at h
  | other => exact .inr ⟨rfl, by simpa [alu] using h.symm⟩
  | div =>
    simp only [alu] at h
    split at h
    · exact .inl ⟨rfl, ‹_›, by simpa using h.symm⟩
    · simp at h

/-! ### Handlers -/

@[simp] theorem runHandler_error (h : Handler) (s : State) (k : FaultKind) :
    runHandler h s (.error k) = .next (takeFault k h.opcode s) := rfl

@[simp] theorem runHandler_ok (h : Handler) (s t : State) :
    runHandler h s (.ok t) = .next (autoAdvance h.opcode t) := rfl

/-- A handler's step takes the fault it raises, or keeps its state and advances. -/
theorem runHandler_cases {h : Handler} {s t : State} {answer : Except FaultKind State}
    (e : runHandler h s answer = .next t) :
    (∃ k, answer = .error k ∧ t = takeFault k h.opcode s) ∨ (∃ u, answer = .ok u ∧ t = autoAdvance h.opcode u) := by
  cases answer with
  | error k => exact .inl ⟨k, rfl, by simpa using e.symm⟩
  | ok u => exact .inr ⟨u, rfl, by simpa using e.symm⟩

end Sys2Proof.Machine
end

