-- ==== Sys2Proof/Laws/Exec.lean ====
section
/-! SUPPORT. For each instruction, once, everything it can do: it takes a fault from the state it started in, or it
has its one effect. `pcAfter` says where an advancing instruction leaves pc. -/

namespace Sys2Proof.Machine

/-! ### Where pc goes -/

theorem autoAdvance_advancing {op : Byte} {n : Nat} (h : setsPc op = false) (hc : operandCount op = n) (s : State) :
    autoAdvance op s = { s with pc := s.pc + BitVec.ofNat 9 (n + 1) } := by
  simp [autoAdvance, h, hc]

theorem autoAdvance_setsPc {op : Byte} (h : setsPc op = true) (s : State) : autoAdvance op s = s := by
  simp [autoAdvance, h]

/-- The operand bytes fit in memory, where the handler has any. -/
def OperandsFit (h : Handler) (s : State) : Prop :=
  operandCount h.opcode = 0 ∨ s.pc.toNat + operandCount h.opcode < 256

/-- A fault that an instruction takes: from the state it started in, and one that an instruction can raise. -/
def TakesFault (h : Handler) (s t : State) : Prop :=
  ∃ k, t = takeFault k h.opcode s ∧ k ≠ .unsupportedOperation ∧ k ≠ .unknownOpcode

theorem takesFault_of {h : Handler} {s t : State} {k : FaultKind} (e : t = takeFault k h.opcode s)
    (hk : k ≠ .unsupportedOperation ∧ k ≠ .unknownOpcode) : TakesFault h s t := ⟨k, e, hk⟩

/-! ### One lemma per instruction -/

theorem execLdi_cases {a imm8 : Byte} {s t : State} (e : execLdi a imm8 s = .next t) :
    TakesFault .ldi s t ∨
      ∃ r : Fin 8, a.toNat = r.val ∧ OperandsFit .ldi s ∧ t = autoAdvance Handler.ldi.opcode (s.setReg r imm8) := by
  unfold execLdi at e
  rcases fetchOperands_cases .ldi s with ⟨hf, ho⟩ | ⟨-, -, ho⟩
  · rcases regIdx_cases a with ⟨r, hr, ha⟩ | ⟨-, ha⟩
    · simp only [ho, ha, except_ok_bind, except_pure, runHandler_ok, Host.Outcome.next.injEq] at e
      exact .inr ⟨r, hr, hf, e.symm⟩
    · simp only [ho, ha, except_ok_bind, except_error_bind, runHandler_error, Host.Outcome.next.injEq] at e
      exact .inl (takesFault_of e.symm (by decide))
  · simp only [ho, except_error_bind, runHandler_error, Host.Outcome.next.injEq] at e
    exact .inl (takesFault_of e.symm (by decide))

theorem execPrn_cases {a : Byte} {s t : State} (e : execPrn a s = .next t) :
    TakesFault .prn s t ∨
      ∃ r : Fin 8, a.toNat = r.val ∧ OperandsFit .prn s ∧
        t = autoAdvance Handler.prn.opcode (emit (s.reg r) s) := by
  unfold execPrn at e
  rcases fetchOperands_cases .prn s with ⟨hf, ho⟩ | ⟨-, -, ho⟩
  · rcases regIdx_cases a with ⟨r, hr, ha⟩ | ⟨-, ha⟩
    · simp only [ho, ha, except_ok_bind, except_pure, runHandler_ok, Host.Outcome.next.injEq] at e
      exact .inr ⟨r, hr, hf, e.symm⟩
    · simp only [ho, ha, except_ok_bind, except_error_bind, runHandler_error, Host.Outcome.next.injEq] at e
      exact .inl (takesFault_of e.symm (by decide))
  · simp only [ho, except_error_bind, runHandler_error, Host.Outcome.next.injEq] at e
    exact .inl (takesFault_of e.symm (by decide))

theorem execHlt_cases {s t : State} (e : execHlt s = .next t) : t = autoAdvance Handler.hlt.opcode (haltRun s) := by
  simp only [execHlt, except_pure, runHandler_ok, Host.Outcome.next.injEq] at e
  exact e.symm

/-- The shared form of ADD, SUB, MUL and DIV. -/
theorem runHandler_aluWriteBack_cases {h : Handler} {op : AluOp} (hop : op ≠ .other) {a b : Byte} {s t : State}
    (e : runHandler h s (aluWriteBack h op a b s) = .next t) :
    TakesFault h s t ∨
      ∃ (ra rb : Fin 8) (v : Byte), a.toNat = ra.val ∧ b.toNat = rb.val ∧ OperandsFit h s ∧
        alu op (s.reg ra) (s.reg rb) = .ok v ∧ t = autoAdvance h.opcode (s.setReg ra v) := by
  unfold aluWriteBack at e
  rcases fetchOperands_cases h s with ⟨hf, ho⟩ | ⟨-, -, ho⟩
  · rcases regIdx_cases a with ⟨ra, hra, ha⟩ | ⟨-, ha⟩
    · rcases regIdx_cases b with ⟨rb, hrb, hb⟩ | ⟨-, hb⟩
      · cases hv : alu op (s.reg ra) (s.reg rb) with
        | ok v =>
          simp only [ho, ha, hb, hv, except_ok_bind, except_pure, runHandler_ok, Host.Outcome.next.injEq] at e
          exact .inr ⟨ra, rb, v, hra, hrb, hf, hv, e.symm⟩
        | error k =>
          simp only [ho, ha, hb, hv, except_ok_bind, except_error_bind, runHandler_error,
            Host.Outcome.next.injEq] at e
          rcases alu_error hv with ⟨-, -, rfl⟩ | ⟨hother, -⟩
          · exact .inl (takesFault_of e.symm (by decide))
          · exact absurd hother hop
      · simp only [ho, ha, hb, except_ok_bind, except_error_bind, runHandler_error, Host.Outcome.next.injEq] at e
        exact .inl (takesFault_of e.symm (by decide))
    · simp only [ho, ha, except_ok_bind, except_error_bind, runHandler_error, Host.Outcome.next.injEq] at e
      exact .inl (takesFault_of e.symm (by decide))
  · simp only [ho, except_error_bind, runHandler_error, Host.Outcome.next.injEq] at e
    exact .inl (takesFault_of e.symm (by decide))

theorem execPush_cases {a : Byte} {s t : State} (e : execPush a s = .next t) :
    TakesFault .push s t ∨
      ∃ r : Fin 8, a.toNat = r.val ∧ OperandsFit .push s ∧ s.sp ≠ 0 ∧
        t = autoAdvance Handler.push.opcode
          { s.setSp (s.sp - 1) with mem := s.mem.write (s.sp - 1).toNat ((s.setSp (s.sp - 1)).reg r) } := by
  unfold execPush at e
  rcases fetchOperands_cases .push s with ⟨hf, ho⟩ | ⟨-, -, ho⟩
  · rcases regIdx_cases a with ⟨r, hr, ha⟩ | ⟨-, ha⟩
    · rcases decrementSp_cases s with ⟨-, hd⟩ | ⟨hsp, hd⟩
      · simp only [ho, ha, hd, except_ok_bind, except_error_bind, runHandler_error, Host.Outcome.next.injEq] at e
        exact .inl (takesFault_of e.symm (by decide))
      · simp only [ho, ha, hd, except_ok_bind, memWrite_byte, sp_setSp, setSp_mem, runHandler_ok,
          Host.Outcome.next.injEq] at e
        exact .inr ⟨r, hr, hf, hsp, e.symm⟩
    · simp only [ho, ha, except_ok_bind, except_error_bind, runHandler_error, Host.Outcome.next.injEq] at e
      exact .inl (takesFault_of e.symm (by decide))
  · simp only [ho, except_error_bind, runHandler_error, Host.Outcome.next.injEq] at e
    exact .inl (takesFault_of e.symm (by decide))

theorem execPop_cases {a : Byte} {s t : State} (e : execPop a s = .next t) :
    TakesFault .pop s t ∨
      ∃ r : Fin 8, a.toNat = r.val ∧ OperandsFit .pop s ∧ s.sp ≠ 255 ∧
        t = autoAdvance Handler.pop.opcode (incrementSp (s.setReg r (s.mem.read s.sp.toNat))) := by
  unfold execPop at e
  rcases fetchOperands_cases .pop s with ⟨hf, ho⟩ | ⟨-, -, ho⟩
  · rcases regIdx_cases a with ⟨r, hr, ha⟩ | ⟨-, ha⟩
    · rcases topOfStack_cases s with ⟨-, hd⟩ | ⟨hsp, hd⟩
      · simp only [ho, ha, hd, except_ok_bind, except_error_bind, runHandler_error, Host.Outcome.next.injEq] at e
        exact .inl (takesFault_of e.symm (by decide))
      · simp only [ho, ha, hd, except_ok_bind, except_pure, runHandler_ok, Host.Outcome.next.injEq] at e
        exact .inr ⟨r, hr, hf, hsp, e.symm⟩
    · simp only [ho, ha, except_ok_bind, except_error_bind, runHandler_error, Host.Outcome.next.injEq] at e
      exact .inl (takesFault_of e.symm (by decide))
  · simp only [ho, except_error_bind, runHandler_error, Host.Outcome.next.injEq] at e
    exact .inl (takesFault_of e.symm (by decide))

theorem execCall_cases {a : Byte} {s t : State} (e : execCall a s = .next t) :
    TakesFault .call s t ∨
      ∃ r : Fin 8, a.toNat = r.val ∧ OperandsFit .call s ∧ s.sp ≠ 0 ∧ s.pc.toNat + 2 < 256 ∧
        t = jumpTo ((s.setSp (s.sp - 1)).reg r)
          { s.setSp (s.sp - 1) with
            mem := s.mem.write (s.sp - 1).toNat (BitVec.ofNat 8 (s.pc.toNat + 2)) } := by
  unfold execCall at e
  rcases fetchOperands_cases .call s with ⟨hf, ho⟩ | ⟨-, -, ho⟩
  · rcases regIdx_cases a with ⟨r, hr, ha⟩ | ⟨-, ha⟩
    · rcases decrementSp_cases s with ⟨-, hd⟩ | ⟨hsp, hd⟩
      · simp only [ho, ha, hd, except_ok_bind, except_error_bind, runHandler_error, Host.Outcome.next.injEq] at e
        exact .inl (takesFault_of e.symm (by decide))
      · cases hw : memWrite (s.setSp (s.sp - 1)).sp.toNat (s.pc.toNat + 2) (s.setSp (s.sp - 1)) with
        | error k =>
          simp only [ho, ha, hd, hw, except_ok_bind, except_error_bind, runHandler_error,
            Host.Outcome.next.injEq] at e
          rcases memWrite_error hw with ⟨rfl, -⟩
          exact .inl (takesFault_of e.symm (by decide))
        | ok u =>
          obtain ⟨-, hret, rfl⟩ := memWrite_eq_ok_iff.1 hw
          simp only [ho, ha, hd, hw, except_ok_bind, except_pure, runHandler_ok, Host.Outcome.next.injEq] at e
          rw [autoAdvance_setsPc (by decide)] at e
          rw [sp_setSp] at e
          exact .inr ⟨r, hr, hf, hsp, hret, e.symm⟩
    · simp only [ho, ha, except_ok_bind, except_error_bind, runHandler_error, Host.Outcome.next.injEq] at e
      exact .inl (takesFault_of e.symm (by decide))
  · simp only [ho, except_error_bind, runHandler_error, Host.Outcome.next.injEq] at e
    exact .inl (takesFault_of e.symm (by decide))

theorem execRet_cases {s t : State} (e : execRet s = .next t) :
    TakesFault .ret s t ∨ (s.sp ≠ 255 ∧ t = jumpTo (s.mem.read s.sp.toNat) (incrementSp s)) := by
  unfold execRet at e
  rcases topOfStack_cases s with ⟨-, hd⟩ | ⟨hsp, hd⟩
  · simp only [hd, except_error_bind, runHandler_error, Host.Outcome.next.injEq] at e
    exact .inl (takesFault_of e.symm (by decide))
  · simp only [hd, except_ok_bind, except_pure, runHandler_ok, Host.Outcome.next.injEq] at e
    rw [autoAdvance_setsPc (by decide)] at e
    exact .inr ⟨hsp, e.symm⟩

/-! ### All instructions at once -/

/-- An instruction takes a fault from the state it started in, or keeps the configuration input and the fault record,
and changes the run state only if it is HLT. -/
theorem exec_cases {i : Instr} {s t : State} (e : exec i s = .next t) :
    TakesFault i.handler s t ∨
      (t.strictOpcodes = s.strictOpcodes ∧ t.faultKind = s.faultKind ∧ t.faultPc = s.faultPc ∧
        t.faultOpcode = s.faultOpcode ∧ (t.run = s.run ∨ (t.run = .halted ∧ i = .hlt))) := by
  cases i with
  | ldi a imm8 =>
    rcases execLdi_cases e with h | ⟨r, -, -, rfl⟩
    · exact .inl h
    · exact .inr (by simp)
  | prn a =>
    rcases execPrn_cases e with h | ⟨r, -, -, rfl⟩
    · exact .inl h
    · exact .inr (by simp)
  | hlt =>
    rw [execHlt_cases e]
    exact .inr (by simp)
  | add a b =>
    rcases runHandler_aluWriteBack_cases (by decide) e with h | ⟨ra, rb, v, -, -, -, -, rfl⟩
    · exact .inl h
    · exact .inr (by simp)
  | sub a b =>
    rcases runHandler_aluWriteBack_cases (by decide) e with h | ⟨ra, rb, v, -, -, -, -, rfl⟩
    · exact .inl h
    · exact .inr (by simp)
  | mul a b =>
    rcases runHandler_aluWriteBack_cases (by decide) e with h | ⟨ra, rb, v, -, -, -, -, rfl⟩
    · exact .inl h
    · exact .inr (by simp)
  | div a b =>
    rcases runHandler_aluWriteBack_cases (by decide) e with h | ⟨ra, rb, v, -, -, -, -, rfl⟩
    · exact .inl h
    · exact .inr (by simp)
  | push a =>
    rcases execPush_cases e with h | ⟨r, -, -, -, rfl⟩
    · exact .inl h
    · exact .inr (by simp)
  | pop a =>
    rcases execPop_cases e with h | ⟨r, -, -, -, rfl⟩
    · exact .inl h
    · exact .inr (by simp)
  | call a =>
    rcases execCall_cases e with h | ⟨r, -, -, -, -, rfl⟩
    · exact .inl h
    · exact .inr (by simp)
  | ret =>
    rcases execRet_cases e with h | ⟨-, rfl⟩
    · exact .inl h
    · exact .inr (by simp)

end Sys2Proof.Machine
end

