-- ==== Sys2Proof/Laws/PerInstr.lean ====
section
/-! SUPPORT. Statements made per instruction. `EncodedLength`: an instruction's encoding is as long as the two
operand-count bits of its own opcode byte say (30_encoding.md R86). -/

namespace Sys2Proof.Laws

/-- The encoding begins with the opcode and has `op[7:6] + 1` bytes (R80, R86). -/
def EncodedLength.Statement (i : Instr) : Prop :=
  (encode i).length = instrLength i.opcode ∧ (encode i).head? = some i.opcode

namespace EncodedLength

theorem ldi (a imm8 : Byte) : Statement (.ldi a imm8) := ⟨by rw [instrLength, Instr.opcode, operandCount_opcode]; rfl, rfl⟩
theorem prn (a : Byte) : Statement (.prn a) := ⟨by rw [instrLength, Instr.opcode, operandCount_opcode]; rfl, rfl⟩
theorem hlt : Statement .hlt := ⟨by rw [instrLength, Instr.opcode, operandCount_opcode]; rfl, rfl⟩
theorem add (a b : Byte) : Statement (.add a b) := ⟨by rw [instrLength, Instr.opcode, operandCount_opcode]; rfl, rfl⟩
theorem sub (a b : Byte) : Statement (.sub a b) := ⟨by rw [instrLength, Instr.opcode, operandCount_opcode]; rfl, rfl⟩
theorem mul (a b : Byte) : Statement (.mul a b) := ⟨by rw [instrLength, Instr.opcode, operandCount_opcode]; rfl, rfl⟩
theorem div (a b : Byte) : Statement (.div a b) := ⟨by rw [instrLength, Instr.opcode, operandCount_opcode]; rfl, rfl⟩
theorem push (a : Byte) : Statement (.push a) := ⟨by rw [instrLength, Instr.opcode, operandCount_opcode]; rfl, rfl⟩
theorem pop (a : Byte) : Statement (.pop a) := ⟨by rw [instrLength, Instr.opcode, operandCount_opcode]; rfl, rfl⟩
theorem call (a : Byte) : Statement (.call a) := ⟨by rw [instrLength, Instr.opcode, operandCount_opcode]; rfl, rfl⟩
theorem ret : Statement .ret := ⟨by rw [instrLength, Instr.opcode, operandCount_opcode]; rfl, rfl⟩

end EncodedLength

end Sys2Proof.Laws
end

