-- ==== Sys2Proof/Laws/Step.lean ====
section
/-! SUPPORT. What a step fetches, and everything a step can do. -/

namespace Sys2Proof.Machine

/-! ### The bytes from an address -/

theorem bytesFrom_length_le (m : Memory) (a n : Nat) : (m.bytesFrom a n).length ≤ n := by
  induction n generalizing a with
  | zero => exact Nat.le_refl 0
  | succ n ih =>
    unfold Memory.bytesFrom
    split
    · exact Nat.succ_le_succ (ih (a + 1))
    · exact Nat.zero_le _

/-- All `n` bytes are there exactly when none of them lies outside memory. -/
theorem bytesFrom_length_eq_iff (m : Memory) (a n : Nat) :
    (m.bytesFrom a n).length = n ↔ n = 0 ∨ a + n ≤ Config.memSize := by
  induction n generalizing a with
  | zero => simp [Memory.bytesFrom]
  | succ n ih =>
    unfold Memory.bytesFrom
    split
    · simp only [List.length_cons, Nat.add_right_cancel_iff, ih]
      omega
    · simp only [List.length_nil]
      omega

theorem bytesFrom_getElem (m : Memory) (a n k : Nat) (hk : k < (m.bytesFrom a n).length) :
    (m.bytesFrom a n)[k] = m.read (a + k) := by
  induction n generalizing a k with
  | zero => exact absurd hk (Nat.not_lt_zero k)
  | succ n ih =>
    by_cases ha : a < Config.memSize
    · have he : m.bytesFrom a (n + 1) = m.read a :: m.bytesFrom (a + 1) n := if_pos ha
      cases k with
      | zero => simp only [he, List.getElem_cons_zero, Nat.add_zero]
      | succ k =>
        simp only [he, List.getElem_cons_succ]
        rw [ih]
        congr 1
        omega
    · have he : m.bytesFrom a (n + 1) = [] := if_neg ha
      simp only [he, List.length_nil] at hk
      omega

/-! ### The fetch -/

theorem fetchBytes_outside {s : State} (h : Config.memSize ≤ s.pc.toNat) : fetchBytes s = [] := if_pos h

theorem fetchBytes_unknown {s : State} (h : s.pc.toNat < Config.memSize)
    (hu : handlerOf (s.mem.read s.pc.toNat) = none) : fetchBytes s = [s.mem.read s.pc.toNat] := by
  rw [fetchBytes, if_neg (by omega)]
  simp only [hu]

theorem fetchBytes_known {s : State} {h : Handler} (hp : s.pc.toNat < Config.memSize)
    (hk : handlerOf (s.mem.read s.pc.toNat) = some h) :
    fetchBytes s =
      s.mem.read s.pc.toNat :: s.mem.bytesFrom (s.pc.toNat + 1) (operandCount (s.mem.read s.pc.toNat)) := by
  rw [fetchBytes, if_neg (by omega)]
  simp only [hk]

/-- The instruction `i` stands at pc: its opcode, and its operand bytes, all inside memory. -/
structure StandsAtPc (i : Instr) (s : State) : Prop where
  inside : s.pc.toNat + i.operandBytes.length < 256
  opcode : s.mem.read s.pc.toNat = i.opcode
  operands : s.mem.bytesFrom (s.pc.toNat + 1) (operandCount i.opcode) = i.operandBytes

/-! ### The step -/

/-- Everything a step of a RUNNING block can do: the four cases of the engine. -/
theorem step_cases {s : State} (hr : s.run = .running) :
    (256 ≤ s.pc.toNat ∧ step s = .next (takeFault .outOfBounds 0 s)) ∨
    (s.pc.toNat < 256 ∧ handlerOf (s.mem.read s.pc.toNat) = none ∧
      step s = .next (unknownOpcodeCycle (s.mem.read s.pc.toNat) s)) ∨
    (∃ h, s.pc.toNat < 256 ∧ handlerOf (s.mem.read s.pc.toNat) = some h ∧ 0 < operandCount h.opcode ∧
      256 ≤ s.pc.toNat + operandCount h.opcode ∧
      step s = .next (takeFault .outOfBounds (s.mem.read s.pc.toNat) s)) ∨
    (∃ i, StandsAtPc i s ∧ step s = exec i s) := by
  by_cases hp : 256 ≤ s.pc.toNat
  · refine .inl ⟨hp, ?_⟩
    simp only [step, hr, fetchBytes_outside hp, decode_nil, rejectedCycle]
  · have hp' : s.pc.toNat < 256 := by omega
    cases hk : handlerOf (s.mem.read s.pc.toNat) with
    | none =>
      refine .inr (.inl ⟨hp', rfl, ?_⟩)
      simp only [step, hr, fetchBytes_unknown hp' hk, decode_unknown hk, rejectedCycle]
    | some h =>
      have hop : h.opcode = s.mem.read s.pc.toNat := opcode_of_handlerOf hk
      cases ha : assemble h (s.mem.bytesFrom (s.pc.toNat + 1) (operandCount (s.mem.read s.pc.toNat))) with
      | none =>
        have hs : step s = .next (takeFault .outOfBounds (s.mem.read s.pc.toNat) s) := by
          simp only [step, hr, fetchBytes_known hp' hk, decode_known hk, ha, rejectedCycle]
        refine .inr (.inr (.inl ⟨h, hp', rfl, ?_⟩))
        have hl := assemble_isSome h (s.mem.bytesFrom (s.pc.toNat + 1) (operandCount (s.mem.read s.pc.toNat)))
        rw [ha, ← hop] at hl
        have hlt := of_decide_eq_false hl.symm
        have hne : (s.mem.bytesFrom (s.pc.toNat + 1) (operandCount h.opcode)).length ≠ operandCount h.opcode := by
          omega
        rw [Ne, bytesFrom_length_eq_iff, Config.memSize] at hne
        exact ⟨by omega, by omega, hs⟩
      | some found =>
        obtain ⟨i, rest⟩ := found
        obtain ⟨hi, hb⟩ := handler_of_assemble ha
        have hl := assemble_isSome h (s.mem.bytesFrom (s.pc.toNat + 1) (operandCount (s.mem.read s.pc.toNat)))
        rw [ha, ← hop] at hl
        have hle := of_decide_eq_true hl.symm
        have hlen : (s.mem.bytesFrom (s.pc.toNat + 1) (operandCount h.opcode)).length = operandCount h.opcode :=
          Nat.le_antisymm (bytesFrom_length_le _ _ _) hle
        have hil : i.operandBytes.length = operandCount h.opcode := by
          rw [← hi]
          cases i <;> (simp only [Instr.handler, operandCount_opcode]; rfl)
        have hrest : rest = [] := by
          rw [← hop] at hb
          have := congrArg List.length hb
          rw [List.length_append, hlen, hil] at this
          exact List.eq_nil_of_length_eq_zero (by omega)
        refine .inr (.inr (.inr ⟨i, ⟨?_, ?_, ?_⟩, ?_⟩))
        · rw [hil]
          have := (bytesFrom_length_eq_iff s.mem (s.pc.toNat + 1) (operandCount h.opcode)).1 hlen
          rw [Config.memSize] at this
          omega
        · rw [Instr.opcode, hi, hop]
        · rw [Instr.opcode, hi, hop, hb, hrest, List.append_nil]
        · simp only [step, hr, fetchBytes_known hp' hk, decode_known hk, ha]

/-- A step of a block that is not RUNNING has no next state. -/
theorem running_of_step {s t : State} (e : step s = .next t) : s.run = .running := by
  cases hr : s.run with
  | running => rfl
  | halted => simp [step, hr] at e
  | faulted => simp [step, hr] at e

/-- A run's first step is `step`. -/
theorem run_succ_of_step {s t : State} (e : step s = .next t) (n : Nat) :
    Host.Core.run Sys2Proof.core (n + 1) s = Host.Core.run Sys2Proof.core n t := by
  have e' : Sys2Proof.core.step s = .next t := e
  simp only [Host.Core.run, e']

/-- A run of at least one step that has a next state had one after its first step. -/
theorem step_of_run_succ {s u : State} {n : Nat} (e : Host.Core.run Sys2Proof.core (n + 1) s = .next u) :
    ∃ t, step s = .next t ∧ Host.Core.run Sys2Proof.core n t = .next u := by
  cases hs : step s with
  | next t => exact ⟨t, rfl, by rw [← run_succ_of_step hs]; exact e⟩
  | fault r =>
    have e' : Sys2Proof.core.step s = .fault r := hs
    simp [Host.Core.run, e'] at e
  | refused r =>
    have e' : Sys2Proof.core.step s = .refused r := hs
    simp [Host.Core.run, e'] at e

/-- What every step keeps, every run keeps. -/
theorem run_induction {P : State → Prop} (hstep : ∀ s t, P s → step s = .next t → P t) :
    ∀ {n : Nat} {s u : State}, P s → Host.Core.run Sys2Proof.core n s = .next u → P u := by
  intro n
  induction n with
  | zero =>
    intro s u hs e
    cases e
    exact hs
  | succ n ih =>
    intro s u hs e
    obtain ⟨t, ht, hu⟩ := step_of_run_succ e
    exact ih (hstep s t hs ht) hu

end Sys2Proof.Machine
end

