-- ==== Sys2Proof/Listing.lean ====
section
/-! DEFINITION. How the spec writes instructions in its listings (30_encoding.md R95, decision D20): notation only,
with no effect on the machine. -/

namespace Sys2Proof

/-- A hexadecimal digit. -/
def hexDigit (n : Nat) : String := (["0", "1", "2", "3", "4", "5", "6", "7", "8", "9", "A", "B", "C", "D", "E", "F"])[n]?.getD ""

/-- A byte as `0xNN`. -/
def hexByte (b : Byte) : String := "0x" ++ hexDigit (b.toNat / 16) ++ hexDigit (b.toNat % 16)

/-- A register operand, `R0`..`R7`; `none` for a byte that names no register. -/
def registerName (b : Byte) : Option String := if b.toNat < 8 then some ("R" ++ hexDigit b.toNat) else none

/-- Raw bytes that no instruction spells: `DB 0xNN`, one per byte. -/
def rawListing (bytes : List Byte) : List String := bytes.map fun b => "DB " ++ hexByte b

/-- A mnemonic with one register operand. -/
def oneRegister (m : String) (a : Byte) : Option String := do
  let ra ← registerName a
  pure (m ++ " " ++ ra)

/-- A mnemonic with two register operands. -/
def twoRegisters (m : String) (a b : Byte) : Option String := do
  let ra ← registerName a
  let rb ← registerName b
  pure (m ++ " " ++ ra ++ ", " ++ rb)

/-- The assembler line of an instruction; `none` where a register byte names no register (R95). Immediates are
written in hex. -/
def Instr.asm : Instr → Option String
  | .ldi a imm8 => (oneRegister "LDI" a).map fun l => l ++ ", " ++ hexByte imm8
  | .prn a => oneRegister "PRN" a
  | .hlt => some "HLT"
  | .add a b => twoRegisters "ADD" a b
  | .sub a b => twoRegisters "SUB" a b
  | .mul a b => twoRegisters "MUL" a b
  | .div a b => twoRegisters "DIV" a b
  | .push a => oneRegister "PUSH" a
  | .pop a => oneRegister "POP" a
  | .call a => oneRegister "CALL" a
  | .ret => some "RET"

/-- The lines of an instruction in a listing. -/
def Instr.listing (i : Instr) : List String :=
  match i.asm with
  | some line => [line]
  | none => rawListing (encode i)

end Sys2Proof
end

