-- ==== Sys2Proof/Tests/Slice0.lean ====
section
/-! SUPPORT. The model's own tests: well-formedness, words written out from the spec's encodings, single steps whose
expected results are the vectors of 95_test_vectors.md (named Vn.m), and, for every obligation with hypotheses, a
witness that meets them. -/

namespace Sys2Proof.Tests

open Sys2Proof Sys2Proof.Machine Sys2Proof.Claims

/-! ### Helpers -/

/-- The reset state at another pc, with bytes stored there. -/
def startAt (pc : PcWord) (bytes : List Byte) : State := storeAtFetch bytes { State.reset with pc := pc }

/-- A state with one register changed. -/
def withReg (s : State) (r : Fin 8) (v : Byte) : State := s.setReg r v

/-- A state with one memory byte changed. -/
def withByte (s : State) (a : Nat) (v : Byte) : State := { s with mem := s.mem.write a v }

/-- The next state of a step, or the state itself if there is none. -/
def after (s : State) : State :=
  match step s with
  | .next t => t
  | .fault _ | .refused _ => s

/-- The next state of an instruction. -/
def afterExec (i : Instr) (s : State) : State :=
  match exec i s with
  | .next t => t
  | .fault _ | .refused _ => s

/-- The fault record: kind, pc, opcode. -/
def record (s : State) : Option FaultKind × PcWord × Byte := (s.faultKind, s.faultPc, s.faultOpcode)

/-! ### Well-formedness: an ill-formed term for each register operand -/

theorem test_wellFormed_accepts : (Instr.add 7 0).wellFormed = true := by decide
theorem test_wellFormed_ldi_immediate_is_free : (Instr.ldi 7 255).wellFormed = true := by decide
theorem test_wellFormed_refuses_ldi : (Instr.ldi 8 0).wellFormed = false := by decide
theorem test_wellFormed_refuses_prn : (Instr.prn 255).wellFormed = false := by decide
theorem test_wellFormed_refuses_add_first : (Instr.add 8 0).wellFormed = false := by decide
theorem test_wellFormed_refuses_add_second : (Instr.add 0 8).wellFormed = false := by decide
theorem test_wellFormed_refuses_sub : (Instr.sub 0 9).wellFormed = false := by decide
theorem test_wellFormed_refuses_mul : (Instr.mul 0 9).wellFormed = false := by decide
theorem test_wellFormed_refuses_div : (Instr.div 0 9).wellFormed = false := by decide
theorem test_wellFormed_refuses_push : (Instr.push 8).wellFormed = false := by decide
theorem test_wellFormed_refuses_pop : (Instr.pop 8).wellFormed = false := by decide
theorem test_wellFormed_refuses_call : (Instr.call 16).wellFormed = false := by decide

/-! ### Decoding: words written out from the patterns of 30_encoding.md R91 -/

theorem test_decode_ldi : decode [0b10000010, 0b00000000, 0b00001000] = .ok (.ldi 0 8, []) := rfl
theorem test_decode_prn : decode [0b01000111, 0b00000000] = .ok (.prn 0, []) := rfl
theorem test_decode_hlt : decode [0b00000001] = .ok (.hlt, []) := rfl
theorem test_decode_add : decode [0b10100000, 0b00000010, 0b00000101] = .ok (.add 2 5, []) := rfl
theorem test_decode_sub : decode [0b10100001, 0b00000010, 0b00000101] = .ok (.sub 2 5, []) := rfl
theorem test_decode_mul : decode [0b10100010, 0b00000010, 0b00000101] = .ok (.mul 2 5, []) := rfl
theorem test_decode_div : decode [0b10100011, 0b00000010, 0b00000101] = .ok (.div 2 5, []) := rfl
theorem test_decode_push : decode [0b01000101, 0b00000011] = .ok (.push 3, []) := rfl
theorem test_decode_pop : decode [0b01000110, 0b00000011] = .ok (.pop 3, []) := rfl
theorem test_decode_call : decode [0b01010000, 0b00000001] = .ok (.call 1, []) := rfl
theorem test_decode_ret : decode [0b00010001] = .ok (.ret, []) := rfl
/-- A register byte of 8 or more decodes (R88). -/
theorem test_decode_register_byte_255 : decode [0x47, 0xFF] = .ok (.prn 255, []) := rfl
/-- V1.8, V1.11, V1.12, V1.15. -/
theorem test_decode_rejects_unknown : decode [0x00] = .error (.unknownOpcode 0x00) ∧ decode [0x83, 0, 0] = .error (.unknownOpcode 0x83) ∧ decode [0x54, 1] = .error (.unknownOpcode 0x54) ∧ decode [0xFF] = .error (.unknownOpcode 0xFF) := ⟨rfl, rfl, rfl, rfl⟩
theorem test_decode_rejects_missing : decode [0x82, 0x00] = .error (.operandMissing 0x82) ∧ decode [] = .error .noOpcode := ⟨rfl, rfl⟩
theorem test_decodeTableWord : decodeTableWord 24 0x0301A0 = some (.add 1 3) ∧ decodeTableWord 8 0x82 = some (.ldi 0 0) ∧ decodeTableWord 8 0x01 = some .hlt ∧ decodeTableWord 8 0x00 = none := ⟨rfl, rfl, rfl, rfl⟩
/-- V1.1, V1.6, V1.14. -/
theorem test_decodeOpcode_fields : (operandCount 0x82, setsPc 0x82) = (2, false) ∧ (operandCount 0x50, setsPc 0x50) = (1, true) ∧ (operandCount 0xC0, setsPc 0xC0) = (3, false) := by decide
theorem test_listing : (Instr.ldi 0 42).listing = ["LDI R0, 0x2A"] ∧ (Instr.prn 8).listing = ["DB 0x47", "DB 0x08"] := by decide

/-! ### Single steps -/

/-- V3.1. -/
theorem test_ldi : (after (startAt 0 [0x82, 0x03, 0xFF])).x[3] = 0xFF ∧ (after (startAt 0 [0x82, 0x03, 0xFF])).pc = 3 := by decide
/-- V3.7: OutOfBounds before InvalidRegister. -/
theorem test_ldi_fault_order : record (after (startAt 254 [0x82, 0x09])) = (some .outOfBounds, 254, 0x82) := by decide
/-- V4.2. -/
theorem test_prn : (after (startAt 0 [0x47, 0x07])).out = [244] ∧ (after (startAt 0 [0x47, 0x07])).pc = 2 := by decide
/-- V4.5. -/
theorem test_prn_fault : record (after (startAt 0 [0x47, 0xFF])) = (some .invalidRegister, 0, 0x47) ∧ (after (startAt 0 [0x47, 0xFF])).out = [] := by decide
/-- V4.6. -/
theorem test_hlt : (after (startAt 11 [0x01])).run = .halted ∧ (after (startAt 11 [0x01])).pc = 12 := by decide
/-- V2.5: HLT at 255. -/
theorem test_hlt_at_255 : (after (startAt 255 [0x01])).run = .halted ∧ (after (startAt 255 [0x01])).pc = 256 := by decide
/-- V5.2. -/
theorem test_add : (after (withReg (withReg (startAt 0 [0xA0, 0, 1]) 0 200) 1 100)).x[0] = 44 := by decide
/-- V5.6: the sum moves the stack pointer. -/
theorem test_add_sp : (after (withReg (startAt 0 [0xA0, 7, 0]) 0 12)).x[7] = 0 := by decide
/-- V5.7. -/
theorem test_sub : (after (withReg (withReg (startAt 0 [0xA1, 0, 1]) 0 3) 1 5)).x[0] = 254 := by decide
/-- V5.13. -/
theorem test_mul : (after (withReg (withReg (startAt 0 [0xA2, 0, 1]) 0 15) 1 17)).x[0] = 255 := by decide
/-- V5.12. -/
theorem test_mul_wraps : (after (withReg (withReg (startAt 0 [0xA2, 0, 1]) 0 255) 1 255)).x[0] = 1 := by decide
/-- V5.16. -/
theorem test_div : (after (withReg (withReg (startAt 0 [0xA3, 0, 1]) 0 200) 1 7)).x[0] = 28 := by decide
/-- V5.22, W2. -/
theorem test_div_by_zero : record (after (withReg (startAt 0 [0xA3, 0, 1]) 0 200)) = (some .divisionByZero, 0, 0xA3) ∧ (after (withReg (startAt 0 [0xA3, 0, 1]) 0 200)).x[0] = 200 := by decide
/-- V6.2: the decremented `sp` is what PUSH R7 stores. -/
theorem test_push_sp : (after (startAt 0 [0x45, 7])).x[7] = 0xF3 ∧ (after (startAt 0 [0x45, 7])).mem.read 0xF3 = 0xF3 := by decide
/-- V6.3: the push overwrites its own opcode byte. -/
theorem test_push_at_one : (after (withReg (withReg (startAt 0 [0x45, 2]) 7 1) 2 0x5A)).mem.read 0 = 0x5A ∧ (after (withReg (withReg (startAt 0 [0x45, 2]) 7 1) 2 0x5A)).x[7] = 0 := by decide
/-- V6.8. -/
theorem test_pop : (after (withByte (withReg (startAt 0 [0x46, 2]) 7 0xFE) 0xFE 0x42)).x[2] = 0x42 ∧ (after (withByte (withReg (startAt 0 [0x46, 2]) 7 0xFE) 0xFE 0x42)).x[7] = 0xFF := by decide
/-- V6.12: POP R7 increments the popped value. -/
theorem test_pop_sp : (after (withByte (withReg (startAt 0 [0x46, 7]) 7 0x10) 0x10 0xFF)).x[7] = 0 := by decide
/-- V7.1. -/
theorem test_call : (after (withReg (startAt 6 [0x50, 1]) 1 14)).pc = 14 ∧ (after (withReg (startAt 6 [0x50, 1]) 1 14)).mem.read 0xF3 = 8 := by decide
/-- V7.5: StackOverflow before the return-address check. -/
theorem test_call_fault_order : record (after (withReg (startAt 254 [0x50, 0]) 7 0)) = (some .stackOverflow, 254, 0x50) := by decide
/-- V7.7. -/
theorem test_ret : (after (withByte (withReg (startAt 17 [0x11]) 7 0xF3) 0xF3 8)).pc = 8 ∧ (after (withByte (withReg (startAt 17 [0x11]) 7 0xF3) 0xF3 8)).x[7] = 0xF4 := by decide
/-- V7.9. -/
theorem test_ret_underflow : record (after (withReg (startAt 0 [0x11]) 7 255)) = (some .stackUnderflow, 0, 0x11) := by decide
/-- V2.1. -/
theorem test_fetch_past_memory : record (after (startAt 256 [])) = (some .outOfBounds, 256, 0x00) := by decide
/-- V1.14 (permissive) and V1.16 (strict). -/
theorem test_unknown_opcode : (after (startAt 252 [0xC0])).pc = 256 ∧ record (after { startAt 9 [0xC0] with strictOpcodes := true }) = (some .unknownOpcode, 9, 0xC0) := by decide
theorem test_withFetchWord : (after (State.reset.withFetchWord 24 0x080382)).x[3] = 8 ∧ (after (State.reset.withFetchWord 8 0x01)).run = .halted := by decide
/-- 70_reset_and_hazards.md R241. -/
theorem test_reset_refuses_long_image : resetWith false gprResetValues (List.replicate 257 0) = none :=
  if_pos (by rw [List.length_replicate]; decide)
theorem test_reset_ports : State.reset.runStatePort = 0 ∧ State.reset.faultKindPort = 0 := by decide
theorem test_reset_memory_wf : State.reset.mem.wf = true := by decide
theorem test_memory_canonical : Memory.write (Memory.write (Memory.write [] 5 1) 3 2) 5 0 = [(3, 2)] := by decide

/-! ### Witnesses: states and operands that meet an obligation's hypotheses -/

theorem witness_StepRunsTheInstructionAtPc :
    (startAt 253 [0x82, 3, 9]).run = .running ∧
    (startAt 253 [0x82, 3, 9]).pc.toNat + (encode (.ldi 3 9)).length ≤ 256 ∧
    ∀ k (hk : k < (encode (.ldi 3 9)).length), (startAt 253 [0x82, 3, 9]).mem.read ((startAt 253 [0x82, 3, 9]).pc.toNat + k) = (encode (.ldi 3 9))[k] := by
  decide
theorem witness_StoredInstructionIsRunNext :
    State.reset.run = .running ∧ State.reset.mem.wf = true ∧ State.reset.pc.toNat + (encode (.add 0 1)).length ≤ 256 := by decide
theorem witness_NoStepAfterHaltOrFault :
    (after (startAt 11 [0x01])).run = .halted ∧ (after (startAt 256 [])).run = .faulted := by decide
theorem witness_RunningBlockAlwaysSteps : State.reset.run = .running := by decide
theorem witness_FetchPastMemoryFaults : (startAt 256 []).run = .running ∧ 256 ≤ (startAt 256 []).pc.toNat := by decide
theorem witness_UnknownOpcodeFollowsThePolicy_advance :
    (startAt 255 [0xC0]).run = .running ∧ (startAt 255 [0xC0]).pc.toNat < 256 ∧ (startAt 255 [0xC0]).mem.read (startAt 255 [0xC0]).pc.toNat = 0xC0 ∧ (0xC0 : Byte) ∉ definedOpcodes ∧ (startAt 255 [0xC0]).strictOpcodes = false ∧ (0xC0 : Byte).toNat / 16 % 2 = 0 := by decide
theorem witness_UnknownOpcodeFollowsThePolicy_hang :
    (startAt 0 [0x54]).run = .running ∧ (startAt 0 [0x54]).pc.toNat < 256 ∧ (startAt 0 [0x54]).mem.read (startAt 0 [0x54]).pc.toNat = 0x54 ∧ (0x54 : Byte) ∉ definedOpcodes ∧ (startAt 0 [0x54]).strictOpcodes = false ∧ (0x54 : Byte).toNat / 16 % 2 = 1 := by decide
/-- A state under the strict policy. -/
def strictAt (pc : PcWord) (bytes : List Byte) : State := { startAt pc bytes with strictOpcodes := true }
theorem witness_UnknownOpcodeFollowsThePolicy_strict :
    (strictAt 255 [0x10]).run = .running ∧ (strictAt 255 [0x10]).pc.toNat < 256 ∧ (strictAt 255 [0x10]).mem.read (strictAt 255 [0x10]).pc.toNat = 0x10 ∧ (0x10 : Byte) ∉ definedOpcodes ∧ (strictAt 255 [0x10]).strictOpcodes = true := by decide
theorem witness_UnknownOpcodeWithBitFourHangs :
    (startAt 0 [0xFF]).run = .running ∧ (startAt 0 [0xFF]).strictOpcodes = false ∧ (startAt 0 [0xFF]).pc.toNat < 256 ∧ (startAt 0 [0xFF]).mem.read (startAt 0 [0xFF]).pc.toNat ∉ definedOpcodes ∧ ((startAt 0 [0xFF]).mem.read (startAt 0 [0xFF]).pc.toNat).toNat / 16 % 2 = 1 := by decide
theorem witness_OperandPastMemoryFaults :
    (startAt 254 [0x82, 0]).run = .running ∧ (startAt 254 [0x82, 0]).pc.toNat < 256 ∧ (startAt 254 [0x82, 0]).mem.read (startAt 254 [0x82, 0]).pc.toNat = 0x82 ∧ (0x82 : Byte) ∈ definedOpcodes ∧ 256 ≤ (startAt 254 [0x82, 0]).pc.toNat + (0x82 : Byte).toNat / 64 := by decide
theorem witness_RunStopsOnlyByHltOrFault :
    State.reset.run = .running ∧ ∃ t, step State.reset = .next t ∧ t.run = .running := ⟨by decide, _, rfl, by decide⟩
theorem witness_RunStopsOnlyByHltOrFault_halted :
    (startAt 255 [0x01]).run = .running ∧ ∃ t, step (startAt 255 [0x01]) = .next t ∧ t.run = .halted := ⟨by decide, _, rfl, by decide⟩
theorem witness_FaultedIsTerminalAndPrecise :
    (startAt 256 []).run = .running ∧ ∃ t, step (startAt 256 []) = .next t ∧ t.run = .faulted := ⟨by decide, _, rfl, by decide⟩
theorem witness_FirstFailingCheckDecidesTheFault_fault :
    (startAt 254 [0x82, 9]).run = .running ∧ (∃ t, step (startAt 254 [0x82, 9]) = .next t) ∧ firstFault (startAt 254 [0x82, 9]) = some .outOfBounds := ⟨by decide, ⟨_, rfl⟩, by decide⟩
theorem witness_FirstFailingCheckDecidesTheFault_none :
    (startAt 253 [0x82, 7, 9]).run = .running ∧ (∃ t, step (startAt 253 [0x82, 7, 9]) = .next t) ∧ firstFault (startAt 253 [0x82, 7, 9]) = none := ⟨by decide, ⟨_, rfl⟩, by decide⟩
theorem witness_PcAdvanceFollowsTheOpcodeBits_advance :
    (startAt 253 [0x82, 7, 9]).run = .running ∧ (startAt 253 [0x82, 7, 9]).pc.toNat < 256 ∧ (startAt 253 [0x82, 7, 9]).mem.read 253 = 0x82 ∧ (0x82 : Byte).toNat / 16 % 2 = 0 ∧ ∃ t, step (startAt 253 [0x82, 7, 9]) = .next t ∧ t.run ≠ .faulted := ⟨by decide, by decide, by decide, by decide, _, rfl, by decide⟩
theorem witness_PcAdvanceFollowsTheOpcodeBits_unknown :
    (startAt 255 [0x10]).run = .running ∧ (startAt 255 [0x10]).mem.read 255 = 0x10 ∧ (0x10 : Byte).toNat / 16 % 2 = 1 ∧ ∃ t, step (startAt 255 [0x10]) = .next t ∧ t.run ≠ .faulted := ⟨by decide, by decide, by decide, _, rfl, by decide⟩
theorem witness_PcAdvanceFollowsTheOpcodeBits_call :
    (startAt 253 [0x50, 7]).run = .running ∧ (startAt 253 [0x50, 7]).mem.read 253 = 0x50 ∧ ∃ t, step (startAt 253 [0x50, 7]) = .next t ∧ t.run ≠ .faulted := ⟨by decide, by decide, _, rfl, by decide⟩
theorem witness_PcAdvanceFollowsTheOpcodeBits_ret :
    (startAt 255 [0x11]).run = .running ∧ (startAt 255 [0x11]).mem.read 255 = 0x11 ∧ ∃ t, step (startAt 255 [0x11]) = .next t ∧ t.run ≠ .faulted := ⟨by decide, by decide, _, rfl, by decide⟩
theorem witness_StepKeepsTheStateLegal : (startAt 255 [0x01]).Inv ∧ ∃ t, step (startAt 255 [0x01]) = .next t :=
  ⟨⟨by decide, by decide, by decide, by decide⟩, _, rfl⟩

theorem witness_LdiLoadsItsImmediate :
    256 ≤ (startAt 254 []).pc.toNat + 2 ∧ ((startAt 253 []).pc.toNat + 2 < 256 ∧ 8 ≤ (8 : Byte).toNat) ∧ ((startAt 253 []).pc.toNat + 2 < 256 ∧ (7 : Byte).toNat = (7 : Fin 8).val) := by decide
theorem witness_PrnEmitsItsRegister :
    256 ≤ (startAt 255 []).pc.toNat + 1 ∧ ((startAt 254 []).pc.toNat + 1 < 256 ∧ 8 ≤ (8 : Byte).toNat) ∧ ((startAt 254 []).pc.toNat + 1 < 256 ∧ (7 : Byte).toNat = (7 : Fin 8).val) := by decide
theorem witness_AddStoresTheSumModulo256 :
    256 ≤ (startAt 254 []).pc.toNat + 2 ∧ ((startAt 253 []).pc.toNat + 2 < 256 ∧ (8 ≤ (7 : Byte).toNat ∨ 8 ≤ (8 : Byte).toNat)) ∧ ((startAt 253 []).pc.toNat + 2 < 256 ∧ (7 : Byte).toNat = (7 : Fin 8).val ∧ (0 : Byte).toNat = (0 : Fin 8).val) := by decide
theorem witness_SubStoresTheDifferenceModulo256 :
    256 ≤ (startAt 255 []).pc.toNat + 2 ∧ ((startAt 253 []).pc.toNat + 2 < 256 ∧ (8 ≤ (8 : Byte).toNat ∨ 8 ≤ (0 : Byte).toNat)) ∧ ((startAt 253 []).pc.toNat + 2 < 256 ∧ (0 : Byte).toNat = (0 : Fin 8).val ∧ (7 : Byte).toNat = (7 : Fin 8).val) := by decide
theorem witness_MulStoresTheProductModulo256 :
    256 ≤ (startAt 254 []).pc.toNat + 2 ∧ ((startAt 253 []).pc.toNat + 2 < 256 ∧ (8 ≤ (255 : Byte).toNat ∨ 8 ≤ (0 : Byte).toNat)) ∧ ((startAt 253 []).pc.toNat + 2 < 256 ∧ (7 : Byte).toNat = (7 : Fin 8).val ∧ (7 : Byte).toNat = (7 : Fin 8).val) := by decide
theorem witness_DivStoresTheTruncatedQuotient :
    256 ≤ (startAt 254 []).pc.toNat + 2 ∧ ((startAt 253 []).pc.toNat + 2 < 256 ∧ (8 ≤ (0 : Byte).toNat ∨ 8 ≤ (8 : Byte).toNat)) ∧ ((startAt 253 []).pc.toNat + 2 < 256 ∧ (0 : Byte).toNat = (0 : Fin 8).val ∧ (7 : Byte).toNat = (7 : Fin 8).val ∧ (startAt 253 []).x[(7 : Fin 8)] ≠ 0) ∧ (withReg (startAt 253 []) 1 0).x[(1 : Fin 8)] = 0 := by decide
theorem witness_PushStoresBelowTheStackPointer :
    256 ≤ (startAt 255 []).pc.toNat + 1 ∧ ((startAt 254 []).pc.toNat + 1 < 256 ∧ 8 ≤ (8 : Byte).toNat) ∧ ((startAt 254 []).pc.toNat + 1 < 256 ∧ (7 : Byte).toNat = (7 : Fin 8).val ∧ (withReg (startAt 254 []) 7 0).x[7] = 0) ∧ ((withReg (startAt 254 []) 7 1).x[7] ≠ 0 ∧ (withReg (startAt 254 []) 7 1).mem.wf = true) := by decide
theorem witness_PopLoadsTheTopOfTheStack :
    256 ≤ (startAt 255 []).pc.toNat + 1 ∧ ((startAt 254 []).pc.toNat + 1 < 256 ∧ 8 ≤ (8 : Byte).toNat) ∧ ((startAt 254 []).pc.toNat + 1 < 256 ∧ (7 : Byte).toNat = (7 : Fin 8).val ∧ (withReg (startAt 254 []) 7 255).x[7] = 255) ∧ (withReg (startAt 254 []) 7 254).x[7] ≠ 255 := by decide
theorem witness_CallPushesTheReturnAddressAndJumps :
    256 ≤ (startAt 255 []).pc.toNat + 1 ∧ ((startAt 254 []).pc.toNat + 1 < 256 ∧ 8 ≤ (8 : Byte).toNat) ∧ (withReg (startAt 254 []) 7 0).x[7] = 0 ∧ ((startAt 254 []).x[7] ≠ 0 ∧ (startAt 254 []).pc.toNat = 254) ∧ ((withReg (startAt 253 []) 7 1).pc.toNat + 1 < 256 ∧ (7 : Byte).toNat = (7 : Fin 8).val ∧ (withReg (startAt 253 []) 7 1).x[7] ≠ 0 ∧ (withReg (startAt 253 []) 7 1).pc.toNat ≠ 254 ∧ (startAt 253 []).mem.wf = true) := by decide
theorem witness_RetPopsThePc : (withReg State.reset 7 255).x[7] = 255 ∧ (withReg State.reset 7 254).x[7] ≠ 255 := by decide
theorem witness_AluComputesItsFourOperations : (0 : Byte) = 0 ∧ (255 : Byte) ≠ 0 := by decide
theorem witness_AluAgreesWithIntegerArithmetic :
    (alu .add 255 0 = .ok 255 ∧ (255 : Byte).toNat + (0 : Byte).toNat < 256) ∧ (alu .sub 5 5 = .ok 0 ∧ (5 : Byte).toNat ≤ (5 : Byte).toNat) ∧ (alu .mul 15 17 = .ok 255 ∧ (15 : Byte).toNat * (17 : Byte).toNat < 256) ∧ alu .div 255 255 = .ok 1 := ⟨⟨rfl, by decide⟩, ⟨rfl, by decide⟩, ⟨rfl, by decide⟩, rfl⟩

theorem witness_RegistersChangeOnlyWhereNamed : (∃ t, exec (.pop 3) State.reset = .next t) ∧ ¬ mayChange (.pop 3) 2 :=
  ⟨⟨_, rfl⟩, by simp only [mayChange]; decide⟩
theorem witness_MemoryChangesOnlyWhereStored_store :
    (∃ t, exec (.push 3) State.reset = .next t) ∧ decrementSp State.reset = .ok (State.reset.setSp 0xF3) ∧ 0xF2 ≠ (State.reset.setSp 0xF3).sp.toNat := ⟨⟨_, rfl⟩, rfl, by decide⟩
theorem witness_MemoryChangesOnlyWhereStored_fault :
    (∃ t, exec (.call 3) (withReg State.reset 7 0) = .next t) ∧ decrementSp (withReg State.reset 7 0) = .error .stackOverflow := ⟨⟨_, rfl⟩, rfl⟩
theorem witness_MemoryChangesOnlyWhereStored_other : ∃ t, exec (.add 0 1) State.reset = .next t := ⟨_, rfl⟩
theorem witness_StatusAndOutputFrame : (∃ t, exec .hlt State.reset = .next t) ∧ ∀ a, Instr.hlt ≠ .prn a := ⟨⟨_, rfl⟩, by simp⟩
theorem witness_OnlyPushAndCallWriteMemory : ∃ t, step (startAt 0 [0x45, 7]) = .next t ∧ t.mem ≠ (startAt 0 [0x45, 7]).mem :=
  ⟨_, rfl, by decide⟩
theorem witness_OutputGrowsOnlyByPrn : ∃ t, step (startAt 254 [0x47, 7]) = .next t ∧ t.out ≠ (startAt 254 [0x47, 7]).out :=
  ⟨_, rfl, by decide⟩
theorem witness_PolicyIsFixedForTheRun : ∃ t, Host.Core.run Sys2Proof.core 1 (strictAt 0 [0x82, 0, 1]) = .next t := ⟨_, rfl⟩
/-- A state that no run reaches: the record already holds UnsupportedOperation, and the step keeps it. -/
theorem witness_NoStepRaisesUnsupportedOperation :
    ∃ t, step { State.reset with faultKind := some .unsupportedOperation } = .next t ∧ t.faultKind = some .unsupportedOperation := ⟨_, rfl, by decide⟩
theorem witness_UnnamedRegisterHasNoInfluence :
    (6 : Fin 8) ≠ 7 ∧ (∀ b ∈ (Instr.push 0).registerBytes, b.toNat ≠ (6 : Fin 8).val) ∧ ∃ t, exec (.push 0) State.reset = .next t := ⟨by decide, by decide, _, rfl⟩
theorem witness_LoadThenPrintEmitsTheValue : (7 : Byte).toNat < 8 ∧ (startAt 251 []).pc.toNat + 4 < 256 := by decide
theorem witness_PushThenPopRestoresTheRegister :
    (7 : Byte).toNat = (7 : Fin 8).val ∧ (startAt 254 []).pc.toNat + 1 < 256 ∧ (withReg (startAt 254 []) 7 1).x[7] ≠ 0 ∧ (startAt 254 []).mem.wf = true := by decide
theorem witness_PushThenPopRestoresTheRegister_between :
    let t := afterExec (.push 3) State.reset
    t.x[7] = t.x[7] ∧ t.mem.read (t.x[7]).toNat = t.mem.read (t.x[7]).toNat ∧ t.pc.toNat + 1 < 256 := by decide
theorem witness_CallThenRetReturnsAfterTheCall :
    (7 : Byte).toNat < 8 ∧ (withReg (startAt 253 []) 7 1).pc.toNat ≤ 253 ∧ (withReg (startAt 253 []) 7 1).x[7] ≠ 0 ∧ (withReg (startAt 253 []) 7 1).mem.wf = true := by decide
/-- P7: `sp` = 9, R1 holds `v`, and the PUSH stands at 6, so that it writes address 8, where the next opcode is. -/
def pushesOver (v : Byte) : State := withReg (withReg (startAt 6 [0x45, 1, 0x47, 1]) 7 9) 1 v
theorem witness_PushedOpcodeIsFetchedNext :
    (pushesOver 0x50).run = .running ∧ (pushesOver 0x50).mem.wf = true ∧ (1 : Byte).toNat = (1 : Fin 8).val ∧ (pushesOver 0x50).x[7] ≠ 0 ∧ (pushesOver 0x50).pc.toNat + 1 < 256 ∧ ∃ t, exec (.push 1) (pushesOver 0x50) = .next t :=
  ⟨by decide, by decide, by decide, by decide, by decide, _, rfl⟩
/-- A CALL R7 at 253 jumps to the return byte it has pushed, 255. -/
theorem witness_PushedOpcodeIsFetchedNext_call :
    (startAt 253 [0x50, 7]).run = .running ∧ (startAt 253 [0x50, 7]).mem.wf = true ∧ (7 : Byte).toNat = (7 : Fin 8).val ∧ (startAt 253 [0x50, 7]).x[7] ≠ 0 ∧ (startAt 253 [0x50, 7]).pc.toNat ≤ 253 ∧ ∃ t, exec (.call 7) (startAt 253 [0x50, 7]) = .next t ∧ t.pc = 243 ∧ t.mem.read 243 = 255 :=
  ⟨by decide, by decide, by decide, by decide, by decide, _, rfl, by decide, by decide⟩
/-- The pushed opcode runs: CALL R1, with R1 = 0x50 itself, and the operand byte that stood at 9 before. -/
theorem witness_PushedOpcodeIsFetchedNext_instruction :
    (after (pushesOver 0x50)).pc.toNat + (encode (.call 1)).length ≤ 256 ∧ [0, 1].map (fun k => readAfterStore (pushesOver 0x50).mem 8 0x50 ((after (pushesOver 0x50)).pc.toNat + k)) = encode (.call 1) := by decide
/-- PUSH at 252 over the opcode at 254: LDI's second operand byte then lies past memory. -/
theorem witness_PushedOpcodeIsFetchedNext_operandMissing :
    let s := withReg (withReg (startAt 252 [0x45, 1]) 7 255) 1 0x82
    (after s).pc.toNat = 254 ∧ readAfterStore s.mem 254 0x82 254 = 0x82 ∧ 0x82 ∈ definedOpcodes ∧ 256 ≤ (after s).pc.toNat + (0x82 : Byte).toNat / 64 := by decide
/-- Pushed unknown opcodes, with bit 4 = 0 and bit 4 = 1, under either policy. -/
theorem witness_PushedOpcodeIsFetchedNext_unknown :
    (0x00 : Byte) ∉ definedOpcodes ∧ (0x00 : Byte).toNat / 16 % 2 = 0 ∧ (0xFF : Byte) ∉ definedOpcodes ∧ (0xFF : Byte).toNat / 16 % 2 = 1 ∧ (after (pushesOver 0xFF)).pc.toNat < 256 ∧ readAfterStore (pushesOver 0xFF).mem 8 0xFF (after (pushesOver 0xFF)).pc.toNat = 0xFF ∧ (after (pushesOver 0xFF)).strictOpcodes = false ∧ (after { pushesOver 0xFF with strictOpcodes := true }).strictOpcodes = true := by decide
/-- P7: a pushed HLT halts the run at the next step. -/
theorem test_pushed_hlt_runs_next : (after (after (pushesOver 0x01))).run = .halted ∧ (after (after (pushesOver 0x01))).pc = 9 := by decide
theorem witness_MemoryAccessIsChecked : (256 : Nat) ≤ 256 ∧ (255 : Nat) < 256 ∧ ((255 : Nat) < 256 ∧ (256 : Nat) ≤ 256) := by decide
theorem witness_MemoryWriteChangesOneCell : State.reset.mem.wf = true ∧ ∃ t, memWrite 255 255 State.reset = .ok t := ⟨by decide, _, rfl⟩
theorem witness_ResetLoadsTheImage : (List.replicate 256 (0x82 : Byte)).length ≤ 256 ∧ 256 < (List.replicate 257 (0x82 : Byte)).length :=
  ⟨Nat.le_of_eq List.length_replicate, by rw [List.length_replicate]; decide⟩
theorem witness_ResetSetsStackPointerAndPc :
    ∃ s, resetWith true (Vector.replicate 7 0x55) [0x45, 0x07] = some s ∧ (7 : Byte).toNat = (7 : Fin 8).val := ⟨_, rfl, by decide⟩

end Sys2Proof.Tests
end

/-! What `resetWith` answers, and PUSH and POP where none of their checks fails. -/

namespace Sys2Proof.Machine

/-- Popping moves no register but R7. -/
theorem reg_incrementSp_other (s : State) {q : Fin 8} (h : q ≠ 7) : (incrementSp s).reg q = s.reg q :=
  reg_setReg_other s _ h.symm

/-! ### PUSH and POP where every check passes (43_stack.md R170, R171) -/

/-- PUSH moves `sp` first and reads `x[r]` after that, so a PUSH of R7 stores the decremented value. -/
theorem exec_push_of_checks {a : Byte} {r : Fin 8} {s : State} (hr : a.toNat = r.val)
    (hf : s.pc.toNat + 1 < 256) (hsp : s.sp ≠ 0) :
    exec (.push a) s = .next (autoAdvance Handler.push.opcode
      { s.setSp (s.sp - 1) with
        mem := s.mem.write (s.sp - 1).toNat ((s.setSp (s.sp - 1)).reg r) }) := by
  have hfetch : fetchOperands .push s = .ok () := fetchOperands_ok hf
  have hdec : decrementSp s = .ok (s.setSp (s.sp - 1)) := if_neg hsp
  change execPush a s = _
  simp only [execPush, hfetch, regIdx_valid hr, hdec, except_ok_bind, memWrite_byte, sp_setSp,
    setSp_mem, runHandler_ok]

/-- POP writes `x[r]` first and reads `sp` after that, so a POP into R7 increments the popped value. -/
theorem exec_pop_of_checks {a : Byte} {r : Fin 8} {s : State} (hr : a.toNat = r.val)
    (hf : s.pc.toNat + 1 < 256) (hsp : s.sp ≠ 255) :
    exec (.pop a) s = .next (autoAdvance Handler.pop.opcode
      (incrementSp (s.setReg r (s.mem.read s.sp.toNat)))) := by
  have hfetch : fetchOperands .pop s = .ok () := fetchOperands_ok hf
  have htop : topOfStack s = .ok (s.mem.read s.sp.toNat) := by
    rw [topOfStack, if_neg hsp, memRead_inside s.sp.isLt]
  change execPop a s = _
  simp only [execPop, hfetch, regIdx_valid hr, htop, except_ok_bind, except_pure, runHandler_ok]

/-! ### The state after reset (70_reset_and_hazards.md R240, R241) -/

/-- A reset succeeds exactly when the image fits in memory, and its answer holds nothing of the state before it. -/
theorem resetWith_eq_some_iff {strict : Bool} {gpr : Vector Byte 7} {image : List Byte} {s : State} :
    resetWith strict gpr image = some s ↔
      image.length ≤ Config.memSize ∧
        s = { mem := Memory.loadBytes [] 0 image, x := resetRegisters gpr, pc := Config.pcReset, run := .running,
              faultKind := none, faultPc := 0, faultOpcode := 0, out := [], strictOpcodes := strict } := by
  unfold resetWith
  split
  · simp; omega
  · simp [eq_comm]; omega

section
variable {strict : Bool} {gpr : Vector Byte 7} {image : List Byte} {s : State}

theorem mem_wf_of_resetWith (h : resetWith strict gpr image = some s) : s.mem.wf = true := by
  obtain ⟨-, rfl⟩ := resetWith_eq_some_iff.1 h
  exact wf_loadBytes wf_nil 0 image

theorem sp_of_resetWith (h : resetWith strict gpr image = some s) : s.sp = 0xF4 := by
  obtain ⟨-, rfl⟩ := resetWith_eq_some_iff.1 h
  exact Vector.getElem_push_eq

theorem pc_of_resetWith (h : resetWith strict gpr image = some s) : s.pc = 0 := by
  obtain ⟨-, rfl⟩ := resetWith_eq_some_iff.1 h
  rfl

theorem run_of_resetWith (h : resetWith strict gpr image = some s) : s.run = .running := by
  obtain ⟨-, rfl⟩ := resetWith_eq_some_iff.1 h
  rfl

end

/-- Settles O50: at `pc` = 0 and `sp` = 0xF4 no check of PUSH or POP fails, so each has its one effect. -/
theorem resetSetsStackPointerAndPc : Obligations.ResetSetsStackPointerAndPc := by
  intro strict gpr image s h
  have hsp := sp_of_resetWith h
  have hpc := pc_of_resetWith h
  refine ⟨hsp, hpc, run_of_resetWith h, fun a r hr => ?_⟩
  have hfits : s.pc.toNat + 1 < 256 := by rw [hpc]; decide
  constructor
  · have hpush := exec_push_of_checks hr hfits (by rw [hsp]; decide)
    rw [hsp] at hpush
    refine ⟨_, hpush, ?_, ?_, fun b hb => ?_⟩
    · simp
    · rw [autoAdvance_mem]
      exact (read_write (mem_wf_of_resetWith h) _ _ _).trans (if_pos rfl)
    · rw [autoAdvance_mem]
      exact read_write_other s.mem _ hb.symm
  · have hpop := exec_pop_of_checks hr hfits (by rw [hsp]; decide)
    rw [hsp] at hpop
    refine ⟨_, hpop, ?_, fun hr7 => ?_⟩
    · simp
    · rw [autoAdvance_x]
      exact (reg_incrementSp_other _ hr7).trans (reg_setReg_same s r _)

end Sys2Proof.Machine

/-! What a later read gives after a completed `memWrite` (20_memory.md R53, R59). -/

namespace Sys2Proof.Machine

/-- A read depends on nothing of the state but the byte at its address. -/
theorem memRead_congr {addr : Nat} {s t : State} (h : t.mem.read addr = s.mem.read addr) :
    memRead addr t = memRead addr s := by
  rw [memRead, memRead, h]

section
variable {addr v : Nat} {s t : State}

theorem memRead_memWrite_same (hwf : s.mem.wf = true) (h : memWrite addr v s = .ok t) :
    memRead addr t = .ok (BitVec.ofNat 8 v) := by
  obtain ⟨haddr, -, rfl⟩ := memWrite_eq_ok_iff.1 h
  have hread := (read_write hwf addr (BitVec.ofNat 8 v) addr).trans (if_pos rfl)
  exact memRead_eq_ok_iff.2 ⟨haddr, hread.symm⟩

/-- A write leaves every other address reading as before, a fault outside memory included. -/
theorem memRead_memWrite_other {b : Nat} (hb : b ≠ addr) (h : memWrite addr v s = .ok t) :
    memRead b t = memRead b s := by
  obtain ⟨-, -, rfl⟩ := memWrite_eq_ok_iff.1 h
  exact memRead_congr (read_write_other s.mem _ hb.symm)

end

/-- Settles O48: a completed write has passed both checks, so its address lies in memory, which keeps the list canonical,
and its value is a byte, which a read gives back whole. -/
theorem memoryWriteChangesOneCell : Obligations.MemoryWriteChangesOneCell := by
  intro s t addr v hwf h
  have hsame := memRead_memWrite_same hwf h
  have hother := fun b hb => memRead_memWrite_other (b := b) hb h
  obtain ⟨haddr, hv, rfl⟩ := memWrite_eq_ok_iff.1 h
  exact ⟨rfl, wf_write hwf haddr _, ⟨_, hsame, (BitVec.toNat_ofNat v 8).trans (Nat.mod_eq_of_lt hv)⟩, hother⟩

end Sys2Proof.Machine

/-! What the decoder reads from each of the 256 opcode bytes (30_encoding.md R81, R83, R84). -/

namespace Sys2Proof

theorem operandCount_eq_div (op : Byte) : operandCount op = op.toNat / 64 := by
  rw [operandCount, BitVec.toNat_ushiftRight, Nat.shiftRight_eq_div_pow]

theorem setsPc_eq_true_iff {op : Byte} : setsPc op = true ↔ op.toNat / 16 % 2 = 1 := by
  rw [setsPc, ← BitVec.testBit_toNat, Nat.testBit_eq_decide_div_mod_eq, decide_eq_true_iff]

/-- The list of R90 holds the opcodes of the handlers and nothing else. -/
theorem mem_definedOpcodes_iff {op : Byte} : op ∈ Claims.definedOpcodes ↔ ∃ h : Handler, h.opcode = op := by
  have hlist : Claims.definedOpcodes = Handler.all.map Handler.opcode := rfl
  simp only [hlist, List.mem_map, mem_all, true_and]

theorem handlerOf_eq_none_iff {op : Byte} : handlerOf op = none ↔ op ∉ Claims.definedOpcodes := by
  simp only [Option.eq_none_iff_forall_ne_some, ne_eq, handlerOf_eq_some_iff, mem_definedOpcodes_iff, not_exists]

/-- Settles O3: the outputs are the shifted byte, its bit 4 and the lookup of the whole byte, which has one key per
handler and no other. -/
theorem decoderReadsTheOpcodeBits : Obligations.DecoderReadsTheOpcodeBits := fun op =>
  ⟨operandCount_eq_div op, setsPc_eq_true_iff, fun _ => handlerOf_eq_some_iff, handlerOf_eq_none_iff⟩

end Sys2Proof

/-! The engine around the handlers: the unknown-opcode cycle, everything a RUNNING step can lead to, and where it
leaves pc (40_engine.md R113, R116, R119). -/

namespace Sys2Proof

/-! ### Bit 4 of the opcode (30_encoding.md R81) -/

/-- The rules state bit 4 as a number's digit, the model as a Boolean. -/
theorem setsPc_eq_false_of_bit {op : Byte} (h : op.toNat / 16 % 2 = 0) : setsPc op = false := by
  rw [Bool.eq_false_iff, ne_eq, setsPc_eq_true_iff, h]
  decide

/-- Of the defined opcodes, CALL's and RET's set pc. -/
theorem setsPc_opcode_iff (h : Handler) : setsPc h.opcode = true ↔ h = .call ∨ h = .ret := by
  cases h <;> decide

end Sys2Proof

namespace Sys2Proof.Machine

/-! ### The unknown-opcode cycle -/

theorem unknownOpcodeCycle_strict {s : State} (h : s.strictOpcodes = true) (op : Byte) :
    unknownOpcodeCycle op s = takeFault .unknownOpcode op s := if_pos h

theorem unknownOpcodeCycle_permissive {s : State} (h : s.strictOpcodes = false) (op : Byte) :
    unknownOpcodeCycle op s = autoAdvance op s := if_neg (by simp [h])

theorem step_of_unknown {s : State} (hr : s.run = .running) (hp : s.pc.toNat < 256)
    (hu : handlerOf (s.mem.read s.pc.toNat) = none) :
    step s = .next (unknownOpcodeCycle (s.mem.read s.pc.toNat) s) := by
  simp only [step, hr, fetchBytes_unknown hp hu, decode_unknown hu, rejectedCycle]

/-- Settles O13: an unknown opcode is the whole fetch, so the step is the unknown-opcode cycle, whose cases are the
policy and bit 4. -/
theorem unknownOpcodeFollowsThePolicy : Obligations.UnknownOpcodeFollowsThePolicy := by
  rintro s op hr hp rfl hop
  rw [step_of_unknown hr hp (handlerOf_eq_none_iff.2 hop)]
  refine ⟨fun hperm hbit => ?_, fun hperm hbit => ?_, fun hstrict => ?_⟩
  · have hpc : ∀ n, s.pc + BitVec.ofNat 9 n = BitVec.ofNat 9 (s.pc.toNat + n) := fun n => by
      rw [BitVec.ofNat_add, BitVec.ofNat_toNat, BitVec.setWidth_eq]
    rw [unknownOpcodeCycle_permissive hperm,
      autoAdvance_advancing (setsPc_eq_false_of_bit hbit) (operandCount_eq_div _), hpc, Nat.add_assoc]
  · rw [unknownOpcodeCycle_permissive hperm, autoAdvance_setsPc (setsPc_eq_true_iff.2 hbit)]
  · rw [unknownOpcodeCycle_strict hstrict]
    rfl

/-! ### Everything a RUNNING step can lead to -/

/-- A step faults from the state it started in, passes over an unknown opcode, or completes the instruction at pc. -/
theorem step_next_cases {s t : State} (hr : s.run = .running) (e : step s = .next t) :
    (∃ k op, t = takeFault k op s) ∨
    (handlerOf (s.mem.read s.pc.toNat) = none ∧ t = autoAdvance (s.mem.read s.pc.toNat) s) ∨
    (∃ i, StandsAtPc i s ∧ exec i s = .next t ∧ ¬ TakesFault i.handler s t) := by
  rcases step_cases hr with ⟨-, hs⟩ | ⟨-, hu, hs⟩ | ⟨h, -, -, -, -, hs⟩ | ⟨i, hi, hs⟩ <;> rw [e] at hs
  · exact .inl ⟨_, _, Host.Outcome.next.inj hs⟩
  · cases hp : s.strictOpcodes with
    | true => exact .inl ⟨_, _, (Host.Outcome.next.inj hs).trans (unknownOpcodeCycle_strict hp _)⟩
    | false => exact .inr (.inl ⟨hu, (Host.Outcome.next.inj hs).trans (unknownOpcodeCycle_permissive hp _)⟩)
  · exact .inl ⟨_, _, Host.Outcome.next.inj hs⟩
  · by_cases hf : TakesFault i.handler s t
    · obtain ⟨k, ht, -⟩ := hf
      exact .inl ⟨k, _, ht⟩
    · exact .inr (.inr ⟨i, hi, hs.symm, hf⟩)

/-- The only way into FAULTED is fault entry from the state the step started in. -/
theorem eq_takeFault_of_step_faulted {s t : State} (hr : s.run = .running) (e : step s = .next t)
    (hf : t.run = .faulted) : ∃ k op, t = takeFault k op s := by
  rcases step_next_cases hr e with h | ⟨-, rfl⟩ | ⟨i, -, he, hn⟩
  · exact h
  · simp [hr] at hf
  · obtain ⟨-, -, -, -, hrun⟩ := (exec_cases he).resolve_left hn
    simp [hr, hf] at hrun

/-- Settles O17: fault entry writes `run` and the record over the state the step started from, and no step is enabled in
FAULTED. -/
theorem faultedIsTerminalAndPrecise : Obligations.FaultedIsTerminalAndPrecise := by
  intro s t hr e hf
  constructor
  · intro u hu
    simp [running_of_step hu] at hf
  · obtain ⟨k, op, rfl⟩ := eq_takeFault_of_step_faulted hr e hf
    rfl

/-! ### Where a step leaves pc -/

/-- pc has 9 bits and the longest instruction is 4 bytes by its opcode bits, so no advance from inside memory wraps. -/
theorem autoAdvance_pc_toNat {op : Byte} {s : State} (hp : s.pc.toNat < 256) (hop : setsPc op = false) :
    (autoAdvance op s).pc.toNat = s.pc.toNat + op.toNat / 64 + 1 := by
  rw [autoAdvance_advancing hop (operandCount_eq_div op), BitVec.toNat_add, BitVec.toNat_ofNat]
  have := op.isLt
  omega

/-- An instruction that does not set pc leaves it to the engine, which advances it by the opcode's bits. -/
theorem exec_advances {i : Instr} {s t : State} (hop : setsPc i.opcode = false) (e : exec i s = .next t) :
    TakesFault i.handler s t ∨ ∃ u, t = autoAdvance i.opcode u ∧ u.pc = s.pc := by
  cases i with
  | ldi a imm8 => exact (execLdi_cases e).imp_right fun ⟨_, _, _, ht⟩ => ⟨_, ht, rfl⟩
  | prn a => exact (execPrn_cases e).imp_right fun ⟨_, _, _, ht⟩ => ⟨_, ht, rfl⟩
  | hlt => exact .inr ⟨_, execHlt_cases e, rfl⟩
  | add a b | sub a b | mul a b | div a b =>
    exact (runHandler_aluWriteBack_cases (by decide) e).imp_right fun ⟨_, _, _, _, _, _, _, ht⟩ => ⟨_, ht, rfl⟩
  | push a => exact (execPush_cases e).imp_right fun ⟨_, _, _, _, ht⟩ => ⟨_, ht, rfl⟩
  | pop a => exact (execPop_cases e).imp_right fun ⟨_, _, _, _, ht⟩ => ⟨_, ht, rfl⟩
  | call a | ret => simp [Instr.opcode, Instr.handler, setsPc_opcode] at hop

/-- The operand bytes of the instruction at pc are the memory bytes after it. -/
theorem StandsAtPc.read_operand {i : Instr} {s : State} (h : StandsAtPc i s) {k : Nat}
    (hk : k < i.operandBytes.length) : s.mem.read (s.pc.toNat + 1 + k) = i.operandBytes[k] := by
  simp only [← h.operands, bytesFrom_getElem]

/-- A completed CALL: the handler reads its register after the push, so pc equals what the register holds at the end. -/
theorem pc_of_exec_call {i : Instr} {s t : State} (hi : StandsAtPc i s) (hc : i.handler = .call)
    (e : exec i s = .next t) (hn : ¬ TakesFault i.handler s t) :
    ∃ r : Fin 8, (s.mem.read (s.pc.toNat + 1)).toNat = r.val ∧ t.pc = (t.x[r]).setWidth 9 := by
  cases i with
  | call a =>
    obtain ⟨r, hr, -, -, -, rfl⟩ := (execCall_cases e).resolve_left hn
    have ha : s.mem.read (s.pc.toNat + 1) = a := hi.read_operand (k := 0) Nat.one_pos
    exact ⟨r, by rw [ha, hr], rfl⟩
  | _ => cases hc

theorem pc_of_exec_ret {i : Instr} {s t : State} (hc : i.handler = .ret) (e : exec i s = .next t)
    (hn : ¬ TakesFault i.handler s t) : t.pc = (s.mem.read (s.x[7]).toNat).setWidth 9 := by
  cases i with
  | ret =>
    obtain ⟨-, rfl⟩ := (execRet_cases e).resolve_left hn
    rfl
  | _ => cases hc

/-- Settles O19: a step without fault passes over an unknown opcode, which is neither 0x50 nor 0x11, or completes an
instruction, of which only CALL and RET have bit 4 set. -/
theorem pcAdvanceFollowsTheOpcodeBits : Obligations.PcAdvanceFollowsTheOpcodeBits := by
  rintro s t op hr hp rfl e hnf
  rcases step_next_cases hr e with ⟨k, op, rfl⟩ | ⟨hu, rfl⟩ | ⟨i, hi, he, hn⟩
  · exact absurd rfl hnf
  · have hundef : ∀ h : Handler, s.mem.read s.pc.toNat ≠ h.opcode := fun h heq => by
      rw [heq, handlerOf_opcode] at hu
      cases hu
    refine ⟨fun hbit => autoAdvance_pc_toNat hp (setsPc_eq_false_of_bit hbit), fun hbit _ _ => ?_,
      fun h50 => absurd h50 (hundef .call), fun h11 => absurd h11 (hundef .ret)⟩
    rw [autoAdvance_setsPc (setsPc_eq_true_iff.2 hbit)]
  · rw [hi.opcode]
    refine ⟨fun hbit => ?_, fun hbit h50 h11 => ?_, fun h50 => ?_, fun h11 => ?_⟩
    · have hop := setsPc_eq_false_of_bit hbit
      obtain ⟨u, rfl, hpc⟩ := (exec_advances hop he).resolve_left hn
      rw [autoAdvance_pc_toNat (by rw [hpc]; exact hp) hop, hpc]
    · rcases (setsPc_opcode_iff _).1 (setsPc_eq_true_iff.2 hbit) with hc | hc
      · exact absurd (congrArg Handler.opcode hc) h50
      · exact absurd (congrArg Handler.opcode hc) h11
    · exact pc_of_exec_call hi (opcode_injective h50) he hn
    · exact pc_of_exec_ret (opcode_injective h11) he hn

end Sys2Proof.Machine

/-! The shared frame of the instructions whose first operand byte names a register, and LDI and PRN in it
(41_load_print_halt.md R130, R131). -/

namespace Sys2Proof.Machine

/-! ### Operand fetch, register operand, effect (30_encoding.md R85, 60_exceptions.md R212) -/

section
variable {h : Handler} {a : Byte} {s : State} (effect : Fin 8 → Except FaultKind State)

/-- The operand fetch is the first check, so its fault is raised whatever comes after it. -/
theorem runHandler_operands_outside (hc : 0 < operandCount h.opcode) (hp : 256 ≤ s.pc.toNat + operandCount h.opcode)
    (rest : Unit → Except FaultKind State) :
    runHandler h s (fetchOperands h s >>= rest) = .next (takeFault .outOfBounds h.opcode s) := by
  rw [fetchOperands_error hc hp, except_error_bind, runHandler_error]

theorem runHandler_register_invalid (hp : s.pc.toNat + operandCount h.opcode < 256) (ha : 8 ≤ a.toNat) :
    runHandler h s (do fetchOperands h s; let r ← regIdx a; effect r) =
      .next (takeFault .invalidRegister h.opcode s) := by
  rw [fetchOperands_ok hp, except_ok_bind, regIdx_invalid ha, except_error_bind, runHandler_error]

theorem runHandler_register_valid (hp : s.pc.toNat + operandCount h.opcode < 256) {r : Fin 8}
    (hr : a.toNat = r.val) :
    runHandler h s (do fetchOperands h s; let r ← regIdx a; effect r) = runHandler h s (effect r) := by
  rw [fetchOperands_ok hp, except_ok_bind, regIdx_valid hr, except_ok_bind]

end

/-! ### LDI and PRN where every check passes -/

theorem exec_ldi_of_checks {a : Byte} {r : Fin 8} {s : State} (hr : a.toNat = r.val) (hf : s.pc.toNat + 2 < 256)
    (imm8 : Byte) : exec (.ldi a imm8) s = .next (autoAdvance Handler.ldi.opcode (s.setReg r imm8)) :=
  runHandler_register_valid (h := .ldi) _ hf hr

theorem exec_prn_of_checks {a : Byte} {r : Fin 8} {s : State} (hr : a.toNat = r.val) (hf : s.pc.toNat + 1 < 256) :
    exec (.prn a) s = .next (autoAdvance Handler.prn.opcode (emit (s.reg r) s)) :=
  runHandler_register_valid (h := .prn) _ hf hr

/-- Settles O22: LDI's two operand bytes are fetched, then its register byte is checked; what is left is the load, after
which pc passes the three bytes. -/
theorem ldiLoadsItsImmediate : Obligations.LdiLoadsItsImmediate := by
  intro s a imm8
  refine ⟨rfl, fun hout => ?_, fun hin ha => ?_, fun hin r hr => ?_⟩
  · exact runHandler_operands_outside (h := .ldi) Nat.two_pos hout _
  · exact runHandler_register_invalid (h := .ldi) _ hin ha
  · rw [exec_ldi_of_checks hr hin, autoAdvance_advancing (setsPc_opcode .ldi) (operandCount_opcode .ldi)]
    rfl

/-- Settles O23: PRN's one operand byte is fetched, then checked as a register; what is left is the event, after which pc
passes the two bytes. -/
theorem prnEmitsItsRegister : Obligations.PrnEmitsItsRegister := by
  intro s a
  refine ⟨rfl, fun hout => ?_, fun hin ha => ?_, fun hin r hr => ?_⟩
  · exact runHandler_operands_outside (h := .prn) Nat.one_pos hout _
  · exact runHandler_register_invalid (h := .prn) _ hin ha
  · rw [exec_prn_of_checks hr hin, autoAdvance_advancing (setsPc_opcode .prn) (operandCount_opcode .prn)]
    rfl

end Sys2Proof.Machine

/-! ADD, SUB and MUL (42_alu.md R150 to R152): the three have one form over the ALU, and differ in the value it
answers. -/

namespace Sys2Proof.Machine

/-! ### The reduction modulo 256 (42_alu.md R155) -/

theorem ofNat_mod_256 (n : Nat) : BitVec.ofNat 8 (n % 256) = BitVec.ofNat 8 n :=
  BitVec.eq_of_toNat_eq (by simp)

theorem alu_add (x y : Byte) : alu .add x y = .ok (BitVec.ofNat 8 ((x.toNat + y.toNat) % 256)) :=
  congrArg Except.ok (ofNat_mod_256 _).symm

/-- Adding 256 first makes the exact difference a natural number and keeps its residue. -/
theorem alu_sub (x y : Byte) : alu .sub x y = .ok (BitVec.ofNat 8 ((256 + x.toNat - y.toNat) % 256)) := by
  have hreduce : BitVec.ofInt 8 ((x.toNat : Int) - y.toNat) = BitVec.ofNat 8 (256 + x.toNat - y.toNat) := by
    apply BitVec.eq_of_toNat_eq
    rw [BitVec.toNat_ofInt, BitVec.toNat_ofNat]
    have := y.isLt
    omega
  exact congrArg Except.ok (hreduce.trans (ofNat_mod_256 _).symm)

theorem alu_mul (x y : Byte) : alu .mul x y = .ok (BitVec.ofNat 8 ((x.toNat * y.toNat) % 256)) :=
  congrArg Except.ok (ofNat_mod_256 _).symm

/-! ### The shared form: its faults in order, then its effect -/

section
variable {h : Handler} {op : AluOp} {a b : Byte} {s : State}

theorem runHandler_aluWriteBack_outside (hc : operandCount h.opcode = 2) (hp : 256 ≤ s.pc.toNat + 2) :
    runHandler h s (aluWriteBack h op a b s) = .next (takeFault .outOfBounds h.opcode s) :=
  runHandler_operands_outside (by rw [hc]; decide) (by rw [hc]; exact hp) _

/-- Either register byte raises the same fault, so their order does not show. -/
theorem runHandler_aluWriteBack_invalid (hc : operandCount h.opcode = 2) (hp : s.pc.toNat + 2 < 256)
    (hab : 8 ≤ a.toNat ∨ 8 ≤ b.toNat) :
    runHandler h s (aluWriteBack h op a b s) = .next (takeFault .invalidRegister h.opcode s) := by
  rw [← hc] at hp
  rcases regIdx_cases a with ⟨ra, hra, -⟩ | ⟨ha, -⟩
  · have hb : 8 ≤ b.toNat := hab.resolve_left (by omega)
    rw [aluWriteBack, runHandler_register_valid _ hp hra, regIdx_invalid hb, except_error_bind, runHandler_error]
  · exact runHandler_register_invalid _ hp ha

/-- Past the operand checks, only the ALU decides: its fault is taken, its value written to `x[ra]`. -/
theorem runHandler_aluWriteBack_valid (hc : operandCount h.opcode = 2) (hp : s.pc.toNat + 2 < 256) {ra rb : Fin 8}
    (hra : a.toNat = ra.val) (hrb : b.toNat = rb.val) :
    runHandler h s (aluWriteBack h op a b s) =
      runHandler h s (do let v ← alu op (s.reg ra) (s.reg rb); pure (s.setReg ra v)) := by
  rw [← hc] at hp
  rw [aluWriteBack, runHandler_register_valid _ hp hra, regIdx_valid hrb, except_ok_bind]

/-- An operation that answers a value writes it to `x[ra]`, and pc passes the three bytes. -/
theorem runHandler_aluWriteBack_of_ok (hc : operandCount h.opcode = 2) (hj : setsPc h.opcode = false)
    (hp : s.pc.toNat + 2 < 256) {ra rb : Fin 8} (hra : a.toNat = ra.val) (hrb : b.toNat = rb.val) {v : Byte}
    (hv : alu op (s.x[ra]) (s.x[rb]) = .ok v) :
    runHandler h s (aluWriteBack h op a b s) = .next { s with x := s.x.set ra v, pc := s.pc + 3 } := by
  have hreg : alu op (s.reg ra) (s.reg rb) = .ok v := hv
  rw [runHandler_aluWriteBack_valid hc hp hra hrb, hreg, except_ok_bind, except_pure, runHandler_ok,
    autoAdvance_advancing hj hc]
  rfl

/-- An operation that answers a value for every pair of bytes: everything its instruction does. -/
theorem runHandler_aluWriteBack_total (hc : operandCount h.opcode = 2) (hj : setsPc h.opcode = false)
    {f : Byte → Byte → Byte} (hf : ∀ x y, alu op x y = .ok (f x y)) :
    (256 ≤ s.pc.toNat + 2 →
      runHandler h s (aluWriteBack h op a b s) = .next (takeFault .outOfBounds h.opcode s)) ∧
    (s.pc.toNat + 2 < 256 → (8 ≤ a.toNat ∨ 8 ≤ b.toNat) →
      runHandler h s (aluWriteBack h op a b s) = .next (takeFault .invalidRegister h.opcode s)) ∧
    (s.pc.toNat + 2 < 256 → ∀ ra rb : Fin 8, a.toNat = ra.val → b.toNat = rb.val →
      runHandler h s (aluWriteBack h op a b s) =
        .next { s with x := s.x.set ra (f s.x[ra] s.x[rb]), pc := s.pc + 3 }) :=
  ⟨runHandler_aluWriteBack_outside hc, runHandler_aluWriteBack_invalid hc,
    fun hin _ _ hra hrb => runHandler_aluWriteBack_of_ok hc hj hin hra hrb (hf _ _)⟩

end

/-- Settles O25: the shared form with the ALU's sum; both reads see the state the step started from, so `a` = `b`
doubles. -/
theorem addStoresTheSumModulo256 : Obligations.AddStoresTheSumModulo256 := fun _ _ _ =>
  ⟨rfl, runHandler_aluWriteBack_total (operandCount_opcode .add) (setsPc_opcode .add) alu_add⟩

/-- Settles O26: the shared form with the ALU's exact difference, reduced. -/
theorem subStoresTheDifferenceModulo256 : Obligations.SubStoresTheDifferenceModulo256 := fun _ _ _ =>
  ⟨rfl, runHandler_aluWriteBack_total (operandCount_opcode .sub) (setsPc_opcode .sub) alu_sub⟩

/-- Settles O27: the shared form with the low byte of the ALU's product. -/
theorem mulStoresTheProductModulo256 : Obligations.MulStoresTheProductModulo256 := fun _ _ _ =>
  ⟨rfl, runHandler_aluWriteBack_total (operandCount_opcode .mul) (setsPc_opcode .mul) alu_mul⟩

end Sys2Proof.Machine

/-! Decoding and encoding are inverse (30_encoding.md R80, R85, R91 to R93), and the opcode bit that the decoder does
not read (R82). -/

namespace Sys2Proof

/-! ### Operand bytes -/

/-- `assemble` takes back the operand bytes of an instruction, whatever follows them. -/
theorem assemble_operandBytes (i : Instr) (rest : List Byte) :
    assemble i.handler (i.operandBytes ++ rest) = some (i, rest) := by
  cases i <;> rfl

/-- An instruction has as many operand bytes as bits 7:6 of its opcode say (R81). -/
theorem operandBytes_length (i : Instr) : i.operandBytes.length = operandCount i.opcode := by
  rw [Instr.opcode, operandCount_opcode]
  cases i <;> rfl

/-! ### Encoding -/

@[simp] theorem handlerOf_instr_opcode (i : Instr) : handlerOf i.opcode = some i.handler := handlerOf_opcode i.handler

theorem decode_encode (i : Instr) (rest : List Byte) : decode (encode i ++ rest) = .ok (i, rest) := by
  rw [encode, List.cons_append, decode_known (handlerOf_instr_opcode i), assemble_operandBytes]

theorem eq_encode_of_decode {bytes rest : List Byte} {i : Instr} (e : decode bytes = .ok (i, rest)) :
    bytes = encode i ++ rest := by
  cases bytes with
  | nil => cases e
  | cons op tail =>
    cases hk : handlerOf op with
    | none =>
      rw [decode_unknown hk] at e
      cases e
    | some h =>
      rw [decode_known hk] at e
      cases ha : assemble h tail with
      | none =>
        rw [ha] at e
        cases e
      | some found =>
        rw [ha] at e
        obtain rfl := Except.ok.inj e
        obtain ⟨rfl, rfl⟩ := handler_of_assemble ha
        rw [← opcode_of_handlerOf hk]
        rfl

/-- Settles O1: the opcode byte selects the handler and no other byte does; the handler's operand bytes are taken
whole. -/
theorem decodeExactlyInvertsEncode : Obligations.DecodeExactlyInvertsEncode := fun _ i rest =>
  ⟨eq_encode_of_decode, fun e => e ▸ decode_encode i rest⟩

/-- Settles O2: the decoder is run on each word. -/
theorem writtenOutWordsDecode : Obligations.WrittenOutWordsDecode :=
  ⟨rfl, rfl, rfl, rfl, rfl, rfl, rfl, rfl, rfl, rfl, rfl, rfl⟩

/-! ### Unknown opcodes -/

/-- A byte is rejected as an unknown opcode exactly when no handler has it, whatever bytes follow. -/
theorem decode_eq_unknownOpcode_iff {op : Byte} {rest : List Byte} :
    decode (op :: rest) = .error (.unknownOpcode op) ↔ handlerOf op = none := by
  refine ⟨fun e => ?_, fun hu => decode_unknown hu rest⟩
  cases hk : handlerOf op with
  | none => rfl
  | some h =>
    rw [decode_known hk] at e
    cases ha : assemble h rest <;> simp [ha] at e

/-- Settles O4: the bytes without a handler are those outside R90's list, counted over all 256. -/
theorem everyOtherByteIsAnUnknownOpcode : Obligations.EveryOtherByteIsAnUnknownOpcode :=
  ⟨fun _ _ => decode_eq_unknownOpcode_iff.trans handlerOf_eq_none_iff, by decide +kernel⟩

/-! ### The reserved bit -/

theorem operandCount_flip_bit5 (op : Byte) : operandCount (op ^^^ 0x20) = operandCount op := by
  have hbits : (0x20 : Byte) >>> 6 = 0#8 := by decide
  rw [operandCount, BitVec.ushiftRight_xor_distrib, hbits, BitVec.xor_zero, operandCount]

theorem setsPc_flip_bit5 (op : Byte) : setsPc (op ^^^ 0x20) = setsPc op := by
  have hbit : (0x20 : Byte).getLsbD 4 = false := by decide
  rw [setsPc, BitVec.getLsbD_xor, hbit, Bool.xor_false, setsPc]

/-- Settles O5: 0x20 has neither bits 7:6 nor bit 4. -/
theorem reservedOpcodeBitIsIgnored : Obligations.ReservedOpcodeBitIsIgnored := fun op =>
  ⟨operandCount_flip_bit5 op, setsPc_flip_bit5 op⟩

end Sys2Proof

/-! What the instructions, and the steps of the engine, leave of every part of the state: the frames of each field, the
ways out of RUNNING, and the invariant that follows (10_state.md, 40_engine.md R118 to R121, 60_exceptions.md). -/

namespace Sys2Proof.Machine

/-! ### The engine around a handler always answers a next state -/

theorem runHandler_answers_next (h : Handler) (s : State) (answer : Except FaultKind State) :
    ∃ t, runHandler h s answer = .next t := by
  cases answer with
  | error k => exact ⟨_, runHandler_error h s k⟩
  | ok u => exact ⟨_, runHandler_ok h s u⟩

/-- Settles O11: every arm of `exec` is a handler run by the engine, which takes the handler's fault or keeps its
state. -/
theorem everyInstructionAnswersANextState : Obligations.EveryInstructionAnswersANextState := by
  intro i s
  cases i with
  | hlt => exact runHandler_answers_next .hlt s (pure (haltRun s))
  | _ => exact runHandler_answers_next _ _ _

/-- Settles O10: three of the engine's four cases name their next state, and the fourth runs an instruction. -/
theorem runningBlockAlwaysSteps : Obligations.RunningBlockAlwaysSteps := by
  intro s hr
  rcases step_cases hr with ⟨-, hs⟩ | ⟨-, -, hs⟩ | ⟨-, -, -, -, -, hs⟩ | ⟨i, -, hs⟩
  · exact ⟨_, hs⟩
  · exact ⟨_, hs⟩
  · exact ⟨_, hs⟩
  · rw [hs]
    exact everyInstructionAnswersANextState i s

/-- Settles O9: `step` looks at the run state first. -/
theorem noStepAfterHaltOrFault : Obligations.NoStepAfterHaltOrFault := fun s =>
  ⟨fun hr => by simp only [step, hr], fun hr => by simp only [step, hr]⟩

/-! ### A fetch outside memory -/

theorem step_of_pc_outside {s : State} (hr : s.run = .running) (hp : 256 ≤ s.pc.toNat) :
    step s = .next (takeFault .outOfBounds 0 s) := by
  simp only [step, hr, fetchBytes_outside hp, decode_nil, rejectedCycle]

/-- Settles O12: past memory nothing is fetched, and no opcode recorded. -/
theorem fetchPastMemoryFaults : Obligations.FetchPastMemoryFaults := fun _ => step_of_pc_outside

/-! ### What an instruction does if it takes no fault -/

/-- The effect of each instruction that completes, with the register its first operand byte names. ADD, SUB, MUL and DIV
differ only in the value they write. -/
inductive HasEffect (s : State) : Instr → State → Prop where
  | ldi {a imm8 : Byte} {r : Fin 8} (hr : a.toNat = r.val) :
      HasEffect s (.ldi a imm8) (autoAdvance Handler.ldi.opcode (s.setReg r imm8))
  | prn {a : Byte} {r : Fin 8} (hr : a.toNat = r.val) :
      HasEffect s (.prn a) (autoAdvance Handler.prn.opcode (emit (s.reg r) s))
  | hlt : HasEffect s .hlt (autoAdvance Handler.hlt.opcode (haltRun s))
  | arithmetic {i : Instr} {a b : Byte} {r : Fin 8} {v : Byte}
      (hi : i = .add a b ∨ i = .sub a b ∨ i = .mul a b ∨ i = .div a b) (hr : a.toNat = r.val) :
      HasEffect s i (autoAdvance i.opcode (s.setReg r v))
  | push {a : Byte} {r : Fin 8} (hr : a.toNat = r.val) (hsp : s.sp ≠ 0) :
      HasEffect s (.push a) (autoAdvance Handler.push.opcode
        { s.setSp (s.sp - 1) with mem := s.mem.write (s.sp - 1).toNat ((s.setSp (s.sp - 1)).reg r) })
  | pop {a : Byte} {r : Fin 8} (hr : a.toNat = r.val) :
      HasEffect s (.pop a) (autoAdvance Handler.pop.opcode (incrementSp (s.setReg r (s.mem.read s.sp.toNat))))
  | call {a : Byte} {r : Fin 8} (hr : a.toNat = r.val) (hsp : s.sp ≠ 0) :
      HasEffect s (.call a) (jumpTo ((s.setSp (s.sp - 1)).reg r)
        { s.setSp (s.sp - 1) with mem := s.mem.write (s.sp - 1).toNat (BitVec.ofNat 8 (s.pc.toNat + 2)) })
  | ret : HasEffect s .ret (jumpTo (s.mem.read s.sp.toNat) (incrementSp s))

theorem exec_faults_or_hasEffect {i : Instr} {s t : State} (e : exec i s = .next t) :
    TakesFault i.handler s t ∨ HasEffect s i t := by
  cases i with
  | ldi a imm8 => exact (execLdi_cases e).imp_right fun ⟨_, hr, _, ht⟩ => ht ▸ .ldi hr
  | prn a => exact (execPrn_cases e).imp_right fun ⟨_, hr, _, ht⟩ => ht ▸ .prn hr
  | hlt => exact .inr (execHlt_cases e ▸ .hlt)
  | add a b | sub a b | mul a b | div a b =>
    exact (runHandler_aluWriteBack_cases (by decide) e).imp_right
      fun ⟨_, _, _, hra, _, _, _, ht⟩ => ht ▸ .arithmetic (a := a) (b := b) (by simp) hra
  | push a => exact (execPush_cases e).imp_right fun ⟨_, hr, _, hsp, ht⟩ => ht ▸ .push hr hsp
  | pop a => exact (execPop_cases e).imp_right fun ⟨_, hr, _, _, ht⟩ => ht ▸ .pop hr
  | call a => exact (execCall_cases e).imp_right fun ⟨_, hr, _, hsp, _, ht⟩ => ht ▸ .call hr hsp
  | ret => exact (execRet_cases e).imp_right fun ⟨_, ht⟩ => ht ▸ .ret

/-! ### Registers -/

/-- Settles O35: a fault writes no register, and each effect writes only its operand's register or `sp`. -/
theorem registersChangeOnlyWhereNamed : Obligations.RegistersChangeOnlyWhereNamed := by
  intro i s t q e hq
  have hset : ∀ (u : State) {r : Fin 8} (v : Byte), r ≠ q → (u.setReg r v).x[q] = u.x[q] :=
    fun u _ v hrq => reg_setReg_other u v hrq
  rcases exec_faults_or_hasEffect e with ⟨k, rfl, -⟩ | he
  · rfl
  · cases he with
    | ldi hr =>
      rw [autoAdvance_x]
      exact hset s _ fun hrq => hq (hrq ▸ hr)
    | prn hr => rw [autoAdvance_x, emit_x]
    | hlt => rw [autoAdvance_x, haltRun_x]
    | arithmetic hi hr =>
      rw [autoAdvance_x]
      rcases hi with rfl | rfl | rfl | rfl <;> exact hset s _ fun hrq => hq (hrq ▸ hr)
    | push hr hsp =>
      rw [autoAdvance_x]
      exact hset s _ (Ne.symm hq)
    | pop hr =>
      rw [autoAdvance_x]
      exact (hset _ _ fun h7 => hq (.inr h7.symm)).trans (hset s _ fun hrq => hq (.inl (hrq ▸ hr)))
    | call hr hsp => exact hset s _ (Ne.symm hq)
    | ret => exact hset s _ (Ne.symm hq)

/-! ### Memory -/

/-- An instruction stores nothing, or is a PUSH or CALL that has passed its stack check and stores one byte below
`sp`. -/
theorem exec_mem_cases {i : Instr} {s t : State} (e : exec i s = .next t) :
    t.mem = s.mem ∨
      ((i.handler = .push ∨ i.handler = .call) ∧ s.sp ≠ 0 ∧ ∃ v, t.mem = s.mem.write (s.sp - 1).toNat v) := by
  rcases exec_faults_or_hasEffect e with ⟨k, rfl, -⟩ | he
  · exact .inl rfl
  · cases he with
    | push hr hsp => exact .inr ⟨.inl rfl, hsp, _, autoAdvance_mem _ _⟩
    | call hr hsp => exact .inr ⟨.inr rfl, hsp, _, rfl⟩
    | ldi | prn | hlt | arithmetic | pop | ret => exact .inl (by simp)

theorem exec_mem_of_no_store {i : Instr} {s t : State} (e : exec i s = .next t) (hpush : i.handler ≠ .push)
    (hcall : i.handler ≠ .call) : t.mem = s.mem :=
  (exec_mem_cases e).resolve_right fun ⟨hst, _⟩ => hst.elim hpush hcall

/-- A PUSH or CALL leaves every byte but the one at the decremented `sp`, and every byte if the decrement faults. -/
theorem exec_mem_around_store {i : Instr} {s t : State} (e : exec i s = .next t) :
    (∀ u, decrementSp s = .ok u → ∀ b, b ≠ u.sp.toNat → t.mem.read b = s.mem.read b) ∧
      (∀ k, decrementSp s = .error k → ∀ b, t.mem.read b = s.mem.read b) := by
  rcases exec_mem_cases e with hsame | ⟨-, hsp, v, hstore⟩
  · simp only [hsame, implies_true, and_self]
  · have hdec : decrementSp s = .ok (s.setSp (s.sp - 1)) := if_neg hsp
    rw [hdec, hstore]
    constructor
    · rintro u hu b hb
      obtain rfl := Except.ok.inj hu
      exact read_write_other s.mem v (Ne.symm (by simpa using hb))
    · rintro k ⟨⟩

/-- Settles O36: the store of PUSH and CALL goes to the `sp` that `decrementSp` leaves, and no other instruction has
one. -/
theorem memoryChangesOnlyWhereStored : Obligations.MemoryChangesOnlyWhereStored := by
  intro i s t e
  cases i with
  | push a | call a => exact exec_mem_around_store e
  | ldi _ _ | prn _ | hlt | add _ _ | sub _ _ | mul _ _ | div _ _ | pop _ | ret =>
    intro b
    rw [exec_mem_of_no_store e (by simp [Instr.handler]) (by simp [Instr.handler])]

/-! ### Output -/

/-- An instruction emits nothing, or is a PRN whose checks pass and emits its register's value. -/
theorem exec_out_cases {i : Instr} {s t : State} (e : exec i s = .next t) :
    t.out = s.out ∨ ∃ (a : Byte) (r : Fin 8), i = .prn a ∧ a.toNat = r.val ∧ t.out = s.out ++ [s.x[r]] := by
  rcases exec_faults_or_hasEffect e with ⟨k, rfl, -⟩ | he
  · exact .inl rfl
  · cases he with
    | prn hr => exact .inr ⟨_, _, rfl, hr, autoAdvance_out _ _⟩
    | ldi | hlt | arithmetic | push | pop | call | ret => exact .inl (by simp)

/-- Settles O37: fault entry writes `run` and the record and nothing else; a completed instruction leaves the policy and
the record, and `run` unless it is HLT. -/
theorem statusAndOutputFrame : Obligations.StatusAndOutputFrame := by
  intro i s t e
  have hout : (∀ a, i ≠ .prn a) → t.out = s.out := fun hi =>
    (exec_out_cases e).resolve_right fun ⟨a, _, ha, _⟩ => hi a ha
  rcases exec_cases e with ⟨k, rfl, -⟩ | ⟨hpolicy, hkind, hpc, hop, hrun⟩
  · exact ⟨rfl, hout, .inr (.inl rfl), .inr ⟨⟨k, rfl⟩, rfl, rfl, rfl⟩⟩
  · exact ⟨hpolicy, hout, hrun.imp_right .inr, .inl ⟨hkind, hpc, hop⟩⟩

/-! ### What a step does to memory and output -/

theorem step_mem_cases {s t : State} (e : step s = .next t) :
    t.mem = s.mem ∨
      ∃ i v, StandsAtPc i s ∧ (i.handler = .push ∨ i.handler = .call) ∧ t.mem = s.mem.write (s.sp - 1).toNat v := by
  rcases step_next_cases (running_of_step e) e with ⟨k, op, rfl⟩ | ⟨-, rfl⟩ | ⟨i, hi, he, -⟩
  · exact .inl rfl
  · exact .inl (autoAdvance_mem _ _)
  · exact (exec_mem_cases he).imp_right fun ⟨hst, _, v, hv⟩ => ⟨i, v, hi, hst, hv⟩

theorem StandsAtPc.pc_lt {i : Instr} {s : State} (h : StandsAtPc i s) : s.pc.toNat < 256 :=
  Nat.lt_of_le_of_lt (Nat.le_add_right _ _) h.inside

/-- Settles O38: the one store of a step is that of the PUSH or CALL standing at pc. -/
theorem onlyPushAndCallWriteMemory : Obligations.OnlyPushAndCallWriteMemory := by
  intro s t e hne
  obtain ⟨i, v, hi, hst, hmem⟩ := (step_mem_cases e).resolve_left hne
  refine ⟨hi.pc_lt, ?_, fun b hb => ?_⟩
  · rw [hi.opcode]
    exact hst.imp (congrArg Handler.opcode) (congrArg Handler.opcode)
  · rw [hmem]
    exact read_write_other s.mem v (Ne.symm hb)

/-- Settles O39: the only event of a step is that of the PRN standing at pc, whose operand byte is the one after it. -/
theorem outputGrowsOnlyByPrn : Obligations.OutputGrowsOnlyByPrn := by
  intro s t e
  rcases step_next_cases (running_of_step e) e with ⟨k, op, rfl⟩ | ⟨-, rfl⟩ | ⟨i, hi, he, -⟩
  · exact .inl rfl
  · exact .inl (autoAdvance_out _ _)
  · rcases exec_out_cases he with hsame | ⟨a, r, rfl, hr, hout⟩
    · exact .inl hsame
    · have ha : s.mem.read (s.pc.toNat + 1) = a := hi.read_operand (k := 0) Nat.one_pos
      exact .inr ⟨hi.inside, hi.opcode, r, by rw [ha, hr], hout⟩

/-! ### Out of RUNNING: by HLT or by a fault (40_engine.md R120) -/

/-- A step that takes no fault: the policy and the record are kept, and the block still runs or a HLT stood at pc. -/
structure CompletesStep (s t : State) : Prop where
  policy : t.strictOpcodes = s.strictOpcodes
  faultKind : t.faultKind = s.faultKind
  faultPc : t.faultPc = s.faultPc
  faultOpcode : t.faultOpcode = s.faultOpcode
  run : t.run = .running ∨ (t.run = .halted ∧ s.pc.toNat < 256 ∧ s.mem.read s.pc.toNat = Handler.hlt.opcode)

theorem CompletesStep.not_faulted {s t : State} (h : CompletesStep s t) : t.run ≠ .faulted := by
  rcases h.run with hr | ⟨hr, -⟩ <;> simp [hr]

/-- The kinds that a step can raise: no instruction asks the ALU for an operation it lacks (42_alu.md R154), and only
the strict policy faults on an unknown opcode (40_engine.md R116). -/
def Raisable (s : State) (k : FaultKind) : Prop :=
  k ≠ .unsupportedOperation ∧ (k = .unknownOpcode → s.strictOpcodes = true)

theorem raisable_outOfBounds (s : State) : Raisable s .outOfBounds := ⟨by decide, by simp⟩

/-- A step completes, or takes a fault of a kind that it can raise. -/
theorem step_faults_or_completes {s t : State} (e : step s = .next t) :
    (∃ k op, Raisable s k ∧ t = takeFault k op s) ∨ CompletesStep s t := by
  have hr := running_of_step e
  rcases step_cases hr with ⟨-, hs⟩ | ⟨-, -, hs⟩ | ⟨h, -, -, -, -, hs⟩ | ⟨i, hi, hs⟩ <;> rw [e] at hs
  · exact .inl ⟨_, _, raisable_outOfBounds s, Host.Outcome.next.inj hs⟩
  · obtain rfl := Host.Outcome.next.inj hs
    cases hp : s.strictOpcodes with
    | true => exact .inl ⟨_, _, ⟨by decide, fun _ => hp⟩, unknownOpcodeCycle_strict hp _⟩
    | false =>
      rw [unknownOpcodeCycle_permissive hp]
      exact .inr (by constructor <;> simp [hr])
  · exact .inl ⟨_, _, raisable_outOfBounds s, Host.Outcome.next.inj hs⟩
  · rcases exec_cases hs.symm with ⟨k, ht, hsupported, hknown⟩ | ⟨hpolicy, hkind, hpc, hop, hrun⟩
    · exact .inl ⟨k, _, ⟨hsupported, fun hk => absurd hk hknown⟩, ht⟩
    · refine .inr ⟨hpolicy, hkind, hpc, hop, hrun.imp (fun h => h.trans hr) ?_⟩
      rintro ⟨hhalt, rfl⟩
      exact ⟨hhalt, hi.pc_lt, hi.opcode⟩

/-- Settles O16: a step that completes leaves RUNNING only if HLT stood at pc, and one that does not records its
kind. -/
theorem runStopsOnlyByHltOrFault : Obligations.RunStopsOnlyByHltOrFault := by
  intro s t _ e
  rcases step_faults_or_completes e with ⟨k, op, -, rfl⟩ | hc
  · exact .inr (.inr ⟨rfl, k, rfl⟩)
  · exact hc.run.imp_right .inl

theorem step_strictOpcodes {s t : State} (e : step s = .next t) : t.strictOpcodes = s.strictOpcodes := by
  rcases step_faults_or_completes e with ⟨k, op, -, rfl⟩ | hc
  · rfl
  · exact hc.policy

/-- Settles O40: every step keeps the policy, so every run does. -/
theorem policyIsFixedForTheRun : Obligations.PolicyIsFixedForTheRun := fun _ s _ e =>
  run_induction (P := fun u => u.strictOpcodes = s.strictOpcodes)
    (fun _ _ hu hstep => (step_strictOpcodes hstep).trans hu) rfl e

/-- Settles O41: the kind that a step records is one that it can raise, and a step that records none keeps the
record. -/
theorem noStepRaisesUnsupportedOperation : Obligations.NoStepRaisesUnsupportedOperation := by
  intro s t e hk
  rcases step_faults_or_completes e with ⟨k, op, ⟨hsupported, -⟩, rfl⟩ | hc
  · exact absurd (Option.some.inj hk) hsupported
  · rw [← hc.faultKind, hk]

/-! ### The invariant -/

theorem step_mem_wf {s t : State} (hwf : s.mem.wf = true) (e : step s = .next t) : t.mem.wf = true := by
  rcases step_mem_cases e with hsame | ⟨-, v, -, -, hstore⟩
  · rw [hsame, hwf]
  · rw [hstore]
    exact wf_write hwf (s.sp - 1).isLt v

theorem setWidth_byte_le (b : Byte) : (b.setWidth 9).toNat ≤ 255 := by
  have := b.isLt
  rw [BitVec.toNat_setWidth]
  omega

/-- A step that completes has fetched its opcode from inside memory. -/
theorem pc_lt_of_step_not_faulted {s t : State} (e : step s = .next t) (hnf : t.run ≠ .faulted) :
    s.pc.toNat < 256 := by
  refine Nat.lt_of_not_le fun hp => ?_
  have hs := step_of_pc_outside (running_of_step e) hp
  obtain rfl := Host.Outcome.next.inj (e.symm.trans hs)
  exact hnf rfl

/-- pc advances from at most 255 by at most 4, stays, or becomes a byte (40_engine.md R114). -/
theorem step_pc_le {s t : State} (hp : s.pc.toNat ≤ 259) (e : step s = .next t) : t.pc.toNat ≤ 259 := by
  rcases step_faults_or_completes e with ⟨k, op, -, rfl⟩ | hc
  · exact hp
  · have hpc := pc_lt_of_step_not_faulted e hc.not_faulted
    obtain ⟨hadvance, hkeep, hcall, hret⟩ :=
      pcAdvanceFollowsTheOpcodeBits s t _ (running_of_step e) hpc rfl e hc.not_faulted
    have hop := (s.mem.read s.pc.toNat).isLt
    rcases Nat.mod_two_eq_zero_or_one ((s.mem.read s.pc.toNat).toNat / 16) with hbit | hbit
    · rw [hadvance hbit]
      omega
    · by_cases h50 : s.mem.read s.pc.toNat = 0x50
      · obtain ⟨r, -, hjump⟩ := hcall h50
        have := setWidth_byte_le t.x[r]
        rw [hjump]
        omega
      · by_cases h11 : s.mem.read s.pc.toNat = 0x11
        · have := setWidth_byte_le (s.mem.read (s.x[7]).toNat)
          rw [hret h11]
          omega
        · rw [hkeep hbit h50 h11]
          exact hp

/-- HLT halts one past its own address (41_load_print_halt.md R132). -/
theorem pc_of_step_halted {s t : State} (e : step s = .next t) (hh : t.run = .halted) :
    1 ≤ t.pc.toNat ∧ t.pc.toNat ≤ 256 := by
  have hnf : t.run ≠ .faulted := by simp [hh]
  rcases runStopsOnlyByHltOrFault s t (running_of_step e) e with hr | ⟨-, hpc, hop⟩ | ⟨hf, -⟩
  · simp [hr] at hh
  · have hadvance := (pcAdvanceFollowsTheOpcodeBits s t _ (running_of_step e) hpc hop e hnf).1 (by decide)
    have hcount : (1 : Byte).toNat / 64 = 0 := by decide
    omega
  · exact absurd hf hnf

theorem recordLegal_of_not_faulted {s : State} (h : s.run ≠ .faulted) :
    s.recordLegal = decide (s.faultKind = none ∧ s.faultPc = 0 ∧ s.faultOpcode = 0) := by
  unfold State.recordLegal
  cases hr : s.run with
  | running | halted => rfl
  | faulted => exact absurd hr h

theorem recordLegal_takeFault {s : State} {k : FaultKind} (hk : Raisable s k) (op : Byte) :
    (takeFault k op s).recordLegal = true := by
  obtain ⟨hsupported, hstrict⟩ := hk
  simp only [State.recordLegal, takeFault_run]
  exact decide_eq_true ⟨rfl, by simp, by simpa using hsupported, by simpa using hstrict⟩

theorem step_recordLegal {s t : State} (hs : s.recordLegal = true) (e : step s = .next t) :
    t.recordLegal = true := by
  rcases step_faults_or_completes e with ⟨k, op, hk, rfl⟩ | hc
  · exact recordLegal_takeFault hk op
  · rw [recordLegal_of_not_faulted hc.not_faulted, hc.faultKind, hc.faultPc, hc.faultOpcode,
      ← recordLegal_of_not_faulted (by simp [running_of_step e]), hs]

/-- Settles O20: each part of the invariant is kept by itself, but for the halted pc, which HLT sets anew. -/
theorem stepKeepsTheStateLegal : Obligations.StepKeepsTheStateLegal := fun _ _ hs e =>
  ⟨step_mem_wf hs.memory e, step_pc_le hs.pcRange e, pc_of_step_halted e, step_recordLegal hs.record e⟩

/-- Settles O21: nothing is listed in memory, pc is 0 and the record is clear. -/
theorem resetStateIsLegal : Obligations.ResetStateIsLegal := by
  constructor <;> decide

end Sys2Proof.Machine

/-! DIV, the stack instructions, CALL, RET and HLT, each with its faults in order and its effect (41_load_print_halt.md
R132, 42_alu.md R153 to R155, 43_stack.md R170, R171, 44_call_return.md R190, R191). -/

namespace Sys2Proof.Machine

/-! ### HLT -/

/-- Settles O24: HLT has no operand and no check. -/
theorem hltHaltsAndAdvances : Obligations.HltHaltsAndAdvances := fun _ => ⟨rfl, rfl⟩

/-! ### The ALU's answers (R154, R155) -/

theorem alu_div_zero (a : Byte) {b : Byte} (hb : b = 0) : alu .div a b = .error .divisionByZero := by
  subst hb
  rfl

theorem alu_div_nonzero (a : Byte) {b : Byte} (hb : b ≠ 0) :
    alu .div a b = .ok (BitVec.ofNat 8 (a.toNat / b.toNat)) :=
  if_neg fun h => hb (BitVec.eq_of_toNat_eq h)

/-- Reducing an integer first does not change the byte it leaves. -/
theorem ofInt_emod_256 (z : Int) : BitVec.ofInt 8 (z % 256) = BitVec.ofInt 8 z :=
  BitVec.eq_of_toInt_eq (by rw [BitVec.toInt_ofInt, BitVec.toInt_ofInt]; exact Int.emod_bmod z 256)

/-- Settles O33: the model reduces modulo 256 when it makes the byte; a divisor is zero as a byte exactly when it is as
a number. -/
theorem aluComputesItsFourOperations : Obligations.AluComputesItsFourOperations := fun a b =>
  ⟨alu_add a b, congrArg Except.ok (ofInt_emod_256 _).symm, alu_mul a b, alu_div_zero a, alu_div_nonzero a, rfl⟩

/-- The exact difference, with 256 added, is the two's-complement one. -/
theorem ofNat_difference (a b : Byte) : BitVec.ofNat 8 (256 + a.toNat - b.toNat) = a - b := by
  apply BitVec.eq_of_toNat_eq
  rw [BitVec.toNat_ofNat, BitVec.toNat_sub]
  have := b.isLt
  omega

theorem toNat_ofNat_of_fits {n : Nat} (h : n < 256) : (BitVec.ofNat 8 n).toNat = n :=
  (BitVec.toNat_ofNat n 8).trans (Nat.mod_eq_of_lt h)

/-- Settles O34: the answers are the two's-complement sum, difference and product, whose numbers are the exact ones
where those fit. -/
theorem aluAgreesWithIntegerArithmetic : Obligations.AluAgreesWithIntegerArithmetic := by
  intro a b v
  refine ⟨fun h => ?_, fun h => ?_, fun h => ?_, fun h => ?_⟩
  · obtain rfl := Except.ok.inj h
    exact ⟨BitVec.eq_of_toNat_eq (by simp), fun hfits => toNat_ofNat_of_fits hfits⟩
  · rw [alu_sub, ofNat_mod_256] at h
    have hv : v = a - b := (Except.ok.inj h).symm.trans (ofNat_difference a b)
    exact ⟨hv, fun hle => by rw [hv]; exact BitVec.toNat_sub_of_le hle⟩
  · obtain rfl := Except.ok.inj h
    exact ⟨BitVec.eq_of_toNat_eq (by simp), fun hfits => toNat_ofNat_of_fits hfits⟩
  · have hb : b ≠ 0 := by
      rintro rfl
      cases h
    rw [alu_div_nonzero a hb] at h
    obtain rfl := Except.ok.inj h
    have hle : a.toNat / b.toNat ≤ a.toNat := Nat.div_le_self _ _
    rw [toNat_ofNat_of_fits (Nat.lt_of_le_of_lt hle a.isLt)]
    exact ⟨rfl, hle⟩

/-! ### DIV -/

theorem exec_div_of_zero_divisor {a b : Byte} {s : State} {ra rb : Fin 8} (hp : s.pc.toNat + 2 < 256)
    (hra : a.toNat = ra.val) (hrb : b.toNat = rb.val) (hz : s.x[rb] = 0) :
    exec (.div a b) s = .next (takeFault .divisionByZero Handler.div.opcode s) := by
  have halu : alu .div (s.reg ra) (s.reg rb) = .error .divisionByZero := alu_div_zero _ hz
  change runHandler .div s (aluWriteBack .div .div a b s) = _
  rw [runHandler_aluWriteBack_valid (operandCount_opcode .div) hp hra hrb, halu, except_error_bind, runHandler_error]

/-- Settles O28: the shared form of the ALU instructions, with a third fault after its two. -/
theorem divStoresTheTruncatedQuotient : Obligations.DivStoresTheTruncatedQuotient := fun _ _ _ =>
  ⟨rfl, runHandler_aluWriteBack_outside (operandCount_opcode .div),
    runHandler_aluWriteBack_invalid (operandCount_opcode .div),
    fun hp _ _ hra hrb => ⟨exec_div_of_zero_divisor hp hra hrb, fun hnz =>
      runHandler_aluWriteBack_of_ok (operandCount_opcode .div) (setsPc_opcode .div) hp hra hrb
        (alu_div_nonzero _ hnz)⟩⟩

/-! ### The checks of a write (20_memory.md R52) -/

section
variable {addr v : Nat} {s : State}

theorem memWrite_address_outside (ha : Config.memSize ≤ addr) : memWrite addr v s = .error .outOfBounds := if_pos ha

theorem memWrite_value_outside (ha : addr < Config.memSize) (hv : 256 ≤ v) :
    memWrite addr v s = .error .outOfBounds := (if_neg (Nat.not_le_of_lt ha)).trans (if_pos hv)

theorem memWrite_inside (ha : addr < Config.memSize) (hv : v < 256) :
    memWrite addr v s = .ok { s with mem := s.mem.write addr (BitVec.ofNat 8 v) } :=
  memWrite_eq_ok_iff.2 ⟨ha, hv, rfl⟩

end

/-- Settles O47: a read has the one check of its address, a write that of its value too. -/
theorem memoryAccessIsChecked : Obligations.MemoryAccessIsChecked := fun s _ _ =>
  ⟨fun ha => ⟨memRead_outside ha s, memWrite_address_outside ha⟩, fun ha => memRead_inside ha s,
    memWrite_value_outside, fun ha hv => ⟨_, memWrite_inside ha hv⟩⟩

/-! ### PUSH and POP -/

theorem exec_push_overflow {a : Byte} {r : Fin 8} {s : State} (hr : a.toNat = r.val) (hf : s.pc.toNat + 1 < 256)
    (hsp : s.sp = 0) : exec (.push a) s = .next (takeFault .stackOverflow Handler.push.opcode s) := by
  have hdec : decrementSp s = .error .stackOverflow := if_pos hsp
  refine (runHandler_register_valid (h := .push) _ hf hr).trans ?_
  rw [hdec, except_error_bind, runHandler_error]

theorem exec_pop_underflow {a : Byte} {r : Fin 8} {s : State} (hr : a.toNat = r.val) (hf : s.pc.toNat + 1 < 256)
    (hsp : s.sp = 255) : exec (.pop a) s = .next (takeFault .stackUnderflow Handler.pop.opcode s) := by
  have htop : topOfStack s = .error .stackUnderflow := if_pos hsp
  refine (runHandler_register_valid (h := .pop) _ hf hr).trans ?_
  rw [htop, except_error_bind, runHandler_error]

/-- Settles O29: past the operand and register checks the stack check decides; a store one below `sp` cannot fault. -/
theorem pushStoresBelowTheStackPointer : Obligations.PushStoresBelowTheStackPointer := by
  intro s a
  refine ⟨rfl, fun hout => ?_, fun hin ha => ?_, fun hin r hr => ⟨exec_push_overflow hr hin, fun hsp => ?_⟩⟩
  · exact runHandler_operands_outside (h := .push) Nat.one_pos hout _
  · exact runHandler_register_invalid (h := .push) _ hin ha
  · refine ⟨_, exec_push_of_checks hr hin hsp, ?_, fun b hb => ?_, fun hwf => ?_⟩
    · rw [autoAdvance_advancing (setsPc_opcode .push) (operandCount_opcode .push)]
      rfl
    · rw [autoAdvance_mem]
      exact read_write_other s.mem _ hb.symm
    · rw [autoAdvance_mem]
      exact (read_write hwf _ _ _).trans (if_pos rfl)

/-- Settles O30: past the operand and register checks the stack check decides; the top byte then always lies in
memory. -/
theorem popLoadsTheTopOfTheStack : Obligations.PopLoadsTheTopOfTheStack := by
  intro s a
  refine ⟨rfl, fun hout => ?_, fun hin ha => ?_, fun hin r hr => ⟨exec_pop_underflow hr hin, fun hsp v hv => ?_⟩⟩
  · exact runHandler_operands_outside (h := .pop) Nat.one_pos hout _
  · exact runHandler_register_invalid (h := .pop) _ hin ha
  · subst hv
    rw [exec_pop_of_checks hr hin hsp,
      autoAdvance_advancing (setsPc_opcode .pop) (operandCount_opcode .pop)]
    rfl

/-! ### CALL and RET -/

theorem exec_call_overflow {a : Byte} {r : Fin 8} {s : State} (hr : a.toNat = r.val) (hf : s.pc.toNat + 1 < 256)
    (hsp : s.sp = 0) : exec (.call a) s = .next (takeFault .stackOverflow Handler.call.opcode s) := by
  have hdec : decrementSp s = .error .stackOverflow := if_pos hsp
  refine (runHandler_register_valid (h := .call) _ hf hr).trans ?_
  rw [hdec, except_error_bind, runHandler_error]

/-- Where the stack check passes, CALL's effect is the store of the return address, then the jump. -/
theorem exec_call_after_decrement {a : Byte} {r : Fin 8} {s : State} (hr : a.toNat = r.val)
    (hf : s.pc.toNat + 1 < 256) (hsp : s.sp ≠ 0) :
    exec (.call a) s = runHandler .call s (do
      let u ← memWrite (s.sp - 1).toNat (s.pc.toNat + 2) (s.setSp (s.sp - 1))
      pure (jumpTo (u.reg r) u)) := by
  have hdec : decrementSp s = .ok (s.setSp (s.sp - 1)) := if_neg hsp
  refine (runHandler_register_valid (h := .call) _ hf hr).trans ?_
  rw [hdec, except_ok_bind, sp_setSp]

/-- The return address 256 is no byte, so its store faults (20_memory.md R52, decision D5). -/
theorem exec_call_return_outside {a : Byte} {r : Fin 8} {s : State} (hr : a.toNat = r.val) (hsp : s.sp ≠ 0)
    (hp : s.pc.toNat = 254) : exec (.call a) s = .next (takeFault .outOfBounds Handler.call.opcode s) := by
  rw [exec_call_after_decrement hr (by omega) hsp, memWrite_value_outside (s.sp - 1).isLt (by omega),
    except_error_bind, runHandler_error]

theorem exec_call_of_checks {a : Byte} {r : Fin 8} {s : State} (hr : a.toNat = r.val) (hp : s.pc.toNat ≤ 253)
    (hsp : s.sp ≠ 0) :
    exec (.call a) s = .next (jumpTo ((s.setSp (s.sp - 1)).reg r)
      { s.setSp (s.sp - 1) with
        mem := s.mem.write (s.sp - 1).toNat (BitVec.ofNat 8 (s.pc.toNat + 2)) }) := by
  rw [exec_call_after_decrement hr (by omega) hsp, memWrite_inside (s.sp - 1).isLt (by omega), except_ok_bind,
    except_pure, runHandler_ok, autoAdvance_setsPc (setsPc_opcode .call)]
  rfl

theorem exec_ret_underflow {s : State} (hsp : s.sp = 255) :
    exec .ret s = .next (takeFault .stackUnderflow Handler.ret.opcode s) := by
  have htop : topOfStack s = .error .stackUnderflow := if_pos hsp
  change execRet s = _
  rw [execRet, htop, except_error_bind, runHandler_error]

theorem exec_ret_of_checks {s : State} (hsp : s.sp ≠ 255) :
    exec .ret s = .next (jumpTo (s.mem.read s.sp.toNat) (incrementSp s)) := by
  have htop : topOfStack s = .ok (s.mem.read s.sp.toNat) := by
    rw [topOfStack, if_neg hsp, memRead_inside s.sp.isLt]
  change execRet s = _
  rw [execRet, htop, except_ok_bind, except_pure, runHandler_ok, autoAdvance_setsPc (setsPc_opcode .ret)]

/-- Settles O31: the stack check comes before the return address, whose own check is that of the store. -/
theorem callPushesTheReturnAddressAndJumps : Obligations.CallPushesTheReturnAddressAndJumps := by
  intro s a
  refine ⟨rfl, fun hout => ?_, fun hin ha => ?_, fun hin r hr =>
    ⟨exec_call_overflow hr hin, exec_call_return_outside hr, fun hsp hp => ?_⟩⟩
  · exact runHandler_operands_outside (h := .call) Nat.one_pos hout _
  · exact runHandler_register_invalid (h := .call) _ hin ha
  · refine ⟨_, exec_call_of_checks hr (by omega) hsp, rfl, fun b hb => ?_, fun hwf => ?_⟩
    · exact read_write_other s.mem _ hb.symm
    · have hread : (s.mem.write (s.sp - 1).toNat (BitVec.ofNat 8 (s.pc.toNat + 2))).read (s.sp - 1).toNat =
          BitVec.ofNat 8 (s.pc.toNat + 2) := (read_write hwf _ _ _).trans (if_pos rfl)
      exact (congrArg BitVec.toNat hread).trans (toNat_ofNat_of_fits (by omega))

/-- Settles O32: RET has no operand, and the stack check is its only one. -/
theorem retPopsThePc : Obligations.RetPopsThePc := fun _ =>
  ⟨rfl, exec_ret_underflow, exec_ret_of_checks⟩

end Sys2Proof.Machine

/-! Which of the engine's four cases a step is in, from the bytes at pc (40_engine.md R110 to R117, 30_encoding.md R85),
and what a step makes of a byte that has just been stored (20_memory.md R63, 70_reset_and_hazards.md R245). -/

namespace Sys2Proof.Machine

open Claims

/-! ### Operands outside memory -/

/-- Settles O15: of the engine's cases, a defined opcode inside memory leaves two, and all operand bytes of an
instruction that stands at pc lie inside memory. -/
theorem operandPastMemoryFaults : Obligations.OperandPastMemoryFaults := by
  rintro s op hr hp rfl hop hout
  rcases step_cases hr with ⟨hp', -⟩ | ⟨-, hu, -⟩ | ⟨-, -, -, -, -, hs⟩ | ⟨i, hi, -⟩
  · omega
  · exact absurd hop (handlerOf_eq_none_iff.1 hu)
  · exact hs
  · have hin := hi.inside
    rw [operandBytes_length, ← hi.opcode, operandCount_eq_div] at hin
    omega

/-! ### The instruction at pc -/

theorem StandsAtPc.fetchBytes_eq {i : Instr} {s : State} (h : StandsAtPc i s) : fetchBytes s = encode i := by
  have hk : handlerOf (s.mem.read s.pc.toNat) = some i.handler := by rw [h.opcode, handlerOf_instr_opcode]
  rw [fetchBytes_known h.pc_lt hk, h.opcode, h.operands, encode]

theorem StandsAtPc.step_eq {i : Instr} {s : State} (h : StandsAtPc i s) (hr : s.run = .running) :
    step s = exec i s := by
  have hd : decode (fetchBytes s) = .ok (i, []) := by rw [h.fetchBytes_eq, ← decode_encode i [], List.append_nil]
  simp only [step, hr, hd]

/-- An instruction stands at pc if memory, read byte by byte from pc, holds its encoding. -/
theorem standsAtPc_of_read {i : Instr} {s : State} (hin : s.pc.toNat + (encode i).length ≤ 256)
    (hread : ∀ k (hk : k < (encode i).length), s.mem.read (s.pc.toNat + k) = (encode i)[k]) : StandsAtPc i s := by
  have hlen : (encode i).length = i.operandBytes.length + 1 := List.length_cons
  have hbytes : (s.mem.bytesFrom (s.pc.toNat + 1) (operandCount i.opcode)).length = operandCount i.opcode :=
    (bytesFrom_length_eq_iff _ _ _).2 (.inr (by rw [← operandBytes_length, Config.memSize]; omega))
  refine ⟨by omega, hread 0 (by omega), List.ext_getElem (by rw [hbytes, operandBytes_length]) fun k _ hk => ?_⟩
  rw [bytesFrom_getElem, Nat.add_assoc, Nat.add_comm 1 k, hread (k + 1) (by omega)]
  rfl

/-- Settles O6: the bytes at pc are the instruction, which the decoder gives back and the dispatch runs. -/
theorem stepRunsTheInstructionAtPc : Obligations.StepRunsTheInstructionAtPc := fun _ _ hr hin hread =>
  (standsAtPc_of_read hin hread).step_eq hr

/-- Settles O7: the stored bytes are read back at pc, since memory is canonical. -/
theorem storedInstructionIsRunNext : Obligations.StoredInstructionIsRunNext := by
  intro s i hr hwf hin
  refine stepRunsTheInstructionAtPc (storeAtFetch (encode i) s) i hr hin fun k hk => ?_
  exact read_loadBytes_at hwf _ _ hk (Nat.lt_of_lt_of_le (Nat.add_lt_add_left hk _) hin)

/-! ### A step that repeats forever -/

theorem run_eq_self_of_step {s : State} (e : step s = .next s) (n : Nat) :
    Host.Core.run Sys2Proof.core n s = .next s := by
  induction n with
  | zero => rfl
  | succ n ih => rw [run_succ_of_step e, ih]

/-- Settles O14: the unknown-opcode cycle leads back to its own state, by induction on the number of steps. -/
theorem unknownOpcodeWithBitFourHangs : Obligations.UnknownOpcodeWithBitFourHangs := by
  intro s hr hperm hp hop hbit
  obtain ⟨-, hrepeat, -⟩ := unknownOpcodeFollowsThePolicy s _ hr hp rfl hop
  have hrun := run_eq_self_of_step (hrepeat hperm hbit)
  exact ⟨hrun, fun n => ⟨s, hrun n, hr⟩⟩

/-! ### A step works on the memory it finds -/

theorem nextStepFetches_of_read {look : Nat → Byte} {t : State} (hr : t.run = .running)
    (hlook : ∀ b, t.mem.read b = look b) : NextStepFetches look t := by
  obtain rfl : t.mem.read = look := funext hlook
  refine ⟨fun i hin hread => stepRunsTheInstructionAtPc t i hr hin hread, fun op hp hop => ⟨fun hdef hout => ?_,
    fun hundef => ?_⟩⟩
  · exact operandPastMemoryFaults t op hr hp hop hdef hout
  · obtain ⟨hadvance, hrepeat, hstrict⟩ := unknownOpcodeFollowsThePolicy t op hr hp hop hundef
    exact ⟨hstrict, hrepeat, hadvance⟩

theorem read_write_eq_readAfterStore {m : Memory} (h : m.wf = true) (addr : Nat) (v : Byte) (b : Nat) :
    (m.write addr v).read b = readAfterStore m addr v b := by
  rw [read_write h, readAfterStore]
  simp only [eq_comm]

/-- Settles O46: PUSH and CALL leave the block running with one byte stored, and the step after them reads what is
there. -/
theorem pushedOpcodeIsFetchedNext : Obligations.PushedOpcodeIsFetchedNext := by
  intro s t a r hr hwf ha hsp
  refine ⟨fun hin e => ?_, fun hin e => ?_⟩
  · obtain rfl := Host.Outcome.next.inj ((exec_push_of_checks ha hin hsp).symm.trans e)
    refine nextStepFetches_of_read (by rw [autoAdvance_run]; exact hr) fun b => ?_
    rw [autoAdvance_mem]
    exact read_write_eq_readAfterStore hwf _ _ b
  · obtain rfl := Host.Outcome.next.inj ((exec_call_of_checks ha hin hsp).symm.trans e)
    exact nextStepFetches_of_read hr fun b => read_write_eq_readAfterStore hwf _ _ b

end Sys2Proof.Machine

/-! Laws of instruction pairs (41_load_print_halt.md R130, 43_stack.md R172, 44_call_return.md R192), reset (R240, R241)
and the ports (10_state.md R31, R33). -/

namespace Sys2Proof.Machine

/-! ### LDI then PRN -/

/-- A valid register byte names a register. -/
theorem exists_register {a : Byte} (ha : a.toNat < 8) : ∃ r : Fin 8, a.toNat = r.val := ⟨⟨a.toNat, ha⟩, rfl⟩

/-- Settles O43: LDI leaves pc three further on, where PRN's operand still fits. -/
theorem loadThenPrintEmitsTheValue : Obligations.LoadThenPrintEmitsTheValue := by
  intro s a imm8 ha hp
  obtain ⟨r, hr⟩ := exists_register ha
  have hpc : (autoAdvance Handler.ldi.opcode (s.setReg r imm8)).pc.toNat = s.pc.toNat + 3 :=
    autoAdvance_pc_toNat (s := s.setReg r imm8) (Nat.lt_of_le_of_lt (Nat.le_add_right _ 4) hp) (setsPc_opcode .ldi)
  refine ⟨_, _, exec_ldi_of_checks hr (by omega) imm8, exec_prn_of_checks hr (by omega), ?_⟩
  have hreg : (autoAdvance Handler.ldi.opcode (s.setReg r imm8)).reg r = imm8 := by
    rw [State.reg, autoAdvance_x]
    exact reg_setReg_same s r imm8
  rw [autoAdvance_out, emit_out, autoAdvance_out, setReg_out, hreg]

/-! ### A push, then a pop -/

/-- Below the bottom of the stack a pop never underflows. -/
theorem sub_one_ne_255 {b : Byte} (hb : b ≠ 0) : b - 1 ≠ 255 := by
  bv_omega

/-- What POP leaves in its register and in `sp`, if PUSH of the same register left `sp` and the top byte: R7 pushes its
decremented value and increments it back, and any other register leaves `sp` to the pop. -/
theorem pop_restores {s m : State} {r : Fin 8} (hsp : m.sp = s.sp - 1)
    (htop : m.mem.read (s.sp - 1).toNat = (s.setSp (s.sp - 1)).reg r) :
    (incrementSp (m.setReg r (m.mem.read m.sp.toNat))).reg r = s.reg r ∧
      (incrementSp (m.setReg r (m.mem.read m.sp.toNat))).sp = s.sp := by
  have hback : s.sp - 1 + 1 = s.sp := BitVec.sub_add_cancel _ _
  rw [hsp, htop]
  by_cases h7 : r = 7
  · subst h7
    have hpopped : (incrementSp (m.setReg 7 ((s.setSp (s.sp - 1)).reg 7))).sp = s.sp := by
      have hpushed : (s.setSp (s.sp - 1)).reg 7 = s.sp - 1 := sp_setSp s _
      rw [incrementSp, sp_setSp, hpushed, State.sp, show Config.spIndex = 7 from rfl, reg_setReg_same]
      exact hback
    exact ⟨hpopped, hpopped⟩
  · have hpushed : (s.setSp (s.sp - 1)).reg r = s.reg r := reg_setReg_other s _ (Ne.symm h7)
    have hkept : (m.setReg r (s.reg r)).sp = m.sp := reg_setReg_other m _ h7
    rw [hpushed]
    constructor
    · rw [reg_incrementSp_other _ h7, reg_setReg_same]
    · rw [incrementSp, sp_setSp, hkept, hsp, hback]

/-- Settles O44: the pushed cell is read back, and the pop undoes the decrement. -/
theorem pushThenPopRestoresTheRegister : Obligations.PushThenPopRestoresTheRegister := by
  intro s a r ha hin hsp hwf
  refine ⟨_, exec_push_of_checks ha hin hsp, fun m hm7 hmem hmin => ?_⟩
  have hmsp : m.sp = s.sp - 1 := by
    rw [sp_eq, hm7, autoAdvance_x]
    exact sp_setSp s _
  rw [← hm7, ← sp_eq, hmsp, autoAdvance_mem] at hmem
  have htop := hmem.trans ((read_write hwf _ _ _).trans (if_pos rfl))
  obtain ⟨hreg, hback⟩ := pop_restores hmsp htop
  refine ⟨_, exec_pop_of_checks ha hmin (by rw [hmsp]; exact sub_one_ne_255 hsp), ?_, ?_⟩
  · rw [autoAdvance_x]
    exact hreg
  · rw [autoAdvance_x]
    exact hback

/-- Settles O45: RET reads the return address back, a byte since CALL stood at 253 or below. -/
theorem callThenRetReturnsAfterTheCall : Obligations.CallThenRetReturnsAfterTheCall := by
  intro s a ha hp hsp hwf
  obtain ⟨r, hr⟩ := exists_register ha
  refine ⟨_, exec_call_of_checks hr hp hsp, fun m hm7 hmem => ?_⟩
  have hmsp : m.sp = s.sp - 1 := by
    rw [sp_eq, hm7]
    exact sp_setSp s _
  rw [← hm7, ← sp_eq, hmsp] at hmem
  have htop := hmem.trans ((read_write hwf _ _ _).trans (if_pos rfl))
  refine ⟨_, exec_ret_of_checks (by rw [hmsp]; exact sub_one_ne_255 hsp), ?_, ?_⟩
  · rw [jumpTo_pc, hmsp, htop, BitVec.toNat_setWidth, toNat_ofNat_of_fits (by omega)]
    omega
  · exact (sp_setSp m _).trans ((congrArg (· + 1) hmsp).trans (BitVec.sub_add_cancel _ _))

/-! ### Reset -/

theorem resetRegisters_general (gpr : Vector Byte 7) (i : Fin 7) : (resetRegisters gpr)[i.val] = gpr[i] :=
  Vector.getElem_push_lt i.isLt

/-- The image stands in memory from address 0, and nothing after it. -/
theorem read_image (image : List Byte) (hlen : image.length ≤ 256) :
    (∀ a (h : a < image.length), (Memory.loadBytes [] 0 image).read a = image[a]) ∧
      (∀ a, image.length ≤ a → (Memory.loadBytes [] 0 image).read a = 0) := by
  refine ⟨fun a ha => ?_, fun a ha => ?_⟩
  · have hread := read_loadBytes_at wf_nil 0 image ha (by rw [Config.memSize]; omega)
    rwa [Nat.zero_add] at hread
  · exact read_loadBytes_above wf_nil image (by rwa [Nat.zero_add])

/-- Settles O49: an image that fits is loaded into an empty memory. -/
theorem resetLoadsTheImage : Obligations.ResetLoadsTheImage := by
  refine fun strict gpr image => ⟨fun hlen => ?_, fun hlong => if_pos hlong⟩
  obtain ⟨hread, hzero⟩ := read_image image hlen
  exact ⟨_, resetWith_eq_some_iff.2 ⟨hlen, rfl⟩, wf_loadBytes wf_nil 0 image, hread, hzero,
    resetRegisters_general gpr, Vector.getElem_push_eq, rfl, rfl, rfl, rfl, rfl, rfl, rfl⟩

/-- Settles O51: the two states are the same, field by field. -/
theorem resetStateIsTheEmptyImageReset : Obligations.ResetStateIsTheEmptyImageReset := rfl

/-! ### The ports -/

/-- Settles O52: by cases on the run state and on the recorded kind. -/
theorem portCodesAreAsListed : Obligations.PortCodesAreAsListed := by
  refine ⟨fun s => ?_, fun s => ?_⟩
  · rw [State.runStatePort]
    cases s.run <;> rfl
  · rw [State.faultKindPort]
    cases s.faultKind with
    | none => rfl
    | some k => cases k <;> rfl

end Sys2Proof.Machine

/-! No instruction looks at a register that it neither names nor uses as the stack pointer (10_state.md R27,
70_reset_and_hazards.md R242). -/

namespace Sys2Proof.Machine

/-! ### A register write passes through every operation on other registers -/

section
variable (s : State) {r q : Fin 8} (v w : Byte)

theorem setReg_comm (h : r ≠ q) : (s.setReg r v).setReg q w = (s.setReg q w).setReg r v := by
  have hx : (s.x.set r v).set q w = (s.x.set q w).set r v := Vector.set_comm v w (Fin.val_ne_of_ne h)
  simp only [State.setReg, hx]

theorem decrementSp_setReg (h : r ≠ 7) :
    decrementSp (s.setReg r v) = (decrementSp s).map fun t => t.setReg r v := by
  have hsp : (s.setReg r v).sp = s.sp := reg_setReg_other s v h
  rcases decrementSp_cases s with ⟨h0, hd⟩ | ⟨h0, hd⟩
  · rw [hd, decrementSp, if_pos (hsp.trans h0)]
    rfl
  · rw [hd, decrementSp, if_neg (by rw [hsp]; exact h0), hsp]
    exact congrArg Except.ok (setReg_comm s v _ h)

theorem topOfStack_setReg (h : r ≠ 7) : topOfStack (s.setReg r v) = topOfStack s := by
  have hsp : (s.setReg r v).sp = s.sp := reg_setReg_other s v h
  rw [topOfStack, hsp]
  rfl

theorem incrementSp_setReg (h : r ≠ 7) : incrementSp (s.setReg r v) = (incrementSp s).setReg r v := by
  have hsp : (s.setReg r v).sp = s.sp := reg_setReg_other s v h
  rw [incrementSp, hsp]
  exact setReg_comm s v _ h

theorem memWrite_setReg (addr n : Nat) :
    memWrite addr n (s.setReg r v) = (memWrite addr n s).map fun t => t.setReg r v := by
  unfold memWrite
  split
  · rfl
  · split <;> rfl

theorem autoAdvance_setReg (op : Byte) : autoAdvance op (s.setReg r v) = (autoAdvance op s).setReg r v := by
  unfold autoAdvance
  split <;> rfl

end

/-! ### The same for a sequence of operations -/

/-- What an operation answers does not depend on `x[r]`, which it leaves alone. -/
def IgnoresReg (r : Fin 8) (v : Byte) (f : State → Except FaultKind State) : Prop :=
  ∀ s, f (s.setReg r v) = (f s).map fun t => t.setReg r v

theorem ignoresReg_pure {r : Fin 8} {v : Byte} {g : State → State} (hg : ∀ s, g (s.setReg r v) = (g s).setReg r v) :
    IgnoresReg r v fun s => pure (g s) := fun s => congrArg Except.ok (hg s)

/-- A check or a read that answers the same on both sides. -/
theorem ignoresReg_read {α : Type} {r : Fin 8} {v : Byte} {c : State → Except FaultKind α}
    {f : α → State → Except FaultKind State} (hc : ∀ s, c (s.setReg r v) = c s) (hf : ∀ a, IgnoresReg r v (f a)) :
    IgnoresReg r v fun s => c s >>= fun a => f a s := by
  intro s
  simp only [hc]
  cases c s with
  | error k => rfl
  | ok a => exact hf a s

/-- A register byte that names another register, or none. -/
theorem ignoresReg_regIdx {b : Byte} {r : Fin 8} {v : Byte} {f : Fin 8 → State → Except FaultKind State}
    (hb : b.toNat ≠ r.val) (hf : ∀ q, r ≠ q → IgnoresReg r v (f q)) :
    IgnoresReg r v fun s => regIdx b >>= fun q => f q s := by
  intro s
  rcases regIdx_cases b with ⟨q, hq, hidx⟩ | ⟨-, hidx⟩
  · simp only [hidx]
    exact hf q (fun hrq => hb (by rw [hrq, hq])) s
  · simp only [hidx]
    rfl

/-- An operation that changes the state, and what follows it; the state before it stays readable. -/
theorem ignoresReg_bind {r : Fin 8} {v : Byte} {f : State → Except FaultKind State}
    {g : State → State → Except FaultKind State} (hf : IgnoresReg r v f)
    (hg : ∀ s t, g (s.setReg r v) (t.setReg r v) = (g s t).map fun u => u.setReg r v) :
    IgnoresReg r v fun s => f s >>= g s := by
  intro s
  simp only [hf s]
  cases f s with
  | error k => rfl
  | ok t => exact hg s t

/-- The frame of the instructions whose first operand byte names a register: only the effect is left to look at. -/
theorem ignoresReg_register_operand {h : Handler} {a : Byte} {r : Fin 8} {v : Byte}
    {f : Fin 8 → State → Except FaultKind State} (ha : a.toNat ≠ r.val) (hf : ∀ q, r ≠ q → IgnoresReg r v (f q)) :
    IgnoresReg r v fun s => (do fetchOperands h s; let q ← regIdx a; f q s) :=
  ignoresReg_read (fun _ => rfl) fun _ => ignoresReg_regIdx ha hf

theorem runHandler_setReg {h : Handler} {r : Fin 8} {v : Byte} {s t : State} {f : State → Except FaultKind State}
    (hf : IgnoresReg r v f) (e : runHandler h s (f s) = .next t) :
    runHandler h (s.setReg r v) (f (s.setReg r v)) = .next (t.setReg r v) := by
  rw [hf]
  rcases runHandler_cases e with ⟨k, hk, rfl⟩ | ⟨u, hu, rfl⟩
  · rw [hk]
    rfl
  · rw [hu, ← autoAdvance_setReg]
    rfl

/-! ### Each instruction -/

theorem ignoresReg_aluWriteBack {h : Handler} {op : AluOp} {a b : Byte} {r : Fin 8} {v : Byte} (ha : a.toNat ≠ r.val)
    (hb : b.toNat ≠ r.val) : IgnoresReg r v (aluWriteBack h op a b) :=
  ignoresReg_register_operand ha fun qa hqa => ignoresReg_regIdx hb fun qb hqb =>
    ignoresReg_read (c := fun s => alu op (s.reg qa) (s.reg qb))
      (fun s => by rw [reg_setReg_other s v hqa, reg_setReg_other s v hqb])
      fun w => ignoresReg_pure (g := fun s => s.setReg qa w) fun s => setReg_comm s v w hqa

/-- PUSH after its register byte: the decrement, then the store of `x[q]`. -/
theorem ignoresReg_push {r q : Fin 8} {v : Byte} (h7 : r ≠ 7) (hq : r ≠ q) :
    IgnoresReg r v fun s => (do let t ← decrementSp s; memWrite t.sp.toNat (t.reg q).toNat t) :=
  ignoresReg_bind (fun s => decrementSp_setReg s v h7) fun _ t => by
    have hsp : (t.setReg r v).sp = t.sp := reg_setReg_other t v h7
    rw [hsp, reg_setReg_other t v hq, memWrite_setReg]

/-- POP after its register byte: the read of the top byte, the write to `x[q]`, the increment. -/
theorem ignoresReg_pop {r q : Fin 8} {v : Byte} (h7 : r ≠ 7) (hq : r ≠ q) :
    IgnoresReg r v fun s => (do let w ← topOfStack s; pure (incrementSp (s.setReg q w))) :=
  ignoresReg_read (fun s => topOfStack_setReg s v h7) fun w => ignoresReg_pure fun s => by
    rw [setReg_comm s v w hq, incrementSp_setReg _ v h7]

/-- CALL after its register byte: the decrement, the store of the return address, the jump to `x[q]`. -/
theorem ignoresReg_call {r q : Fin 8} {v : Byte} (h7 : r ≠ 7) (hq : r ≠ q) :
    IgnoresReg r v fun s => (do
      let t ← decrementSp s
      let u ← memWrite t.sp.toNat (s.pc.toNat + 2) t
      pure (jumpTo (u.reg q) u)) :=
  ignoresReg_bind (fun s => decrementSp_setReg s v h7) fun s t => by
    have hsp : (t.setReg r v).sp = t.sp := reg_setReg_other t v h7
    rw [hsp, memWrite_setReg, setReg_pc]
    cases memWrite t.sp.toNat (s.pc.toNat + 2) t with
    | error k => rfl
    | ok u => exact congrArg Except.ok (by rw [reg_setReg_other u v hq]; rfl)

theorem ignoresReg_ret {r : Fin 8} {v : Byte} (h7 : r ≠ 7) :
    IgnoresReg r v fun s => (do let w ← topOfStack s; pure (jumpTo w (incrementSp s))) :=
  ignoresReg_read (fun s => topOfStack_setReg s v h7) fun w => ignoresReg_pure fun s => by
    rw [incrementSp_setReg s v h7]
    rfl

/-- Settles O42: every operation of the instruction reads and writes registers other than `r`, so the write to `r`
passes through it. -/
theorem unnamedRegisterHasNoInfluence : Obligations.UnnamedRegisterHasNoInfluence := by
  intro i s t r v h7 hnamed e
  cases i with
  | ldi a imm8 =>
    exact runHandler_setReg (ignoresReg_register_operand (hnamed a (by simp [Instr.registerBytes]))
      fun q hq => ignoresReg_pure (g := fun u => u.setReg q imm8) fun u => setReg_comm u v imm8 hq) e
  | prn a =>
    exact runHandler_setReg (ignoresReg_register_operand (hnamed a (by simp [Instr.registerBytes]))
      fun q hq => ignoresReg_pure (g := fun u => emit (u.reg q) u) fun u => by rw [reg_setReg_other u v hq]; rfl) e
  | hlt => exact runHandler_setReg (ignoresReg_pure fun _ => rfl) e
  | add a b | sub a b | mul a b | div a b =>
    exact runHandler_setReg (ignoresReg_aluWriteBack (hnamed a (by simp [Instr.registerBytes]))
      (hnamed b (by simp [Instr.registerBytes]))) e
  | push a =>
    exact runHandler_setReg (ignoresReg_register_operand (hnamed a (by simp [Instr.registerBytes]))
      fun q hq => ignoresReg_push h7 hq) e
  | pop a =>
    exact runHandler_setReg (ignoresReg_register_operand (hnamed a (by simp [Instr.registerBytes]))
      fun q hq => ignoresReg_pop h7 hq) e
  | call a =>
    exact runHandler_setReg (ignoresReg_register_operand (hnamed a (by simp [Instr.registerBytes]))
      fun q hq => ignoresReg_call h7 hq) e
  | ret => exact runHandler_setReg (ignoresReg_ret h7) e

end Sys2Proof.Machine

/-! Each instruction's checks in the order of the spec's list, and the first that fails (60_exceptions.md R212,
R213). -/

namespace Sys2Proof.Machine

/-! ### The checks that are left once an instruction stands at pc -/

/-- The fault of an instruction whose bytes lie in memory, if it has one: the checks of R212 that the fetch leaves open,
in their order. -/
def faultOf (i : Instr) (s : State) : Option FaultKind :=
  match i with
  | .ldi a _ | .prn a => if 8 ≤ a.toNat then some .invalidRegister else none
  | .hlt => none
  | .add a b | .sub a b | .mul a b => if 8 ≤ a.toNat ∨ 8 ≤ b.toNat then some .invalidRegister else none
  | .div a b =>
    if 8 ≤ a.toNat ∨ 8 ≤ b.toNat then some .invalidRegister
    else if s.x[b.toNat]? = some 0 then some .divisionByZero
    else none
  | .push a => if 8 ≤ a.toNat then some .invalidRegister else if s.sp = 0 then some .stackOverflow else none
  | .pop a => if 8 ≤ a.toNat then some .invalidRegister else if s.sp = 255 then some .stackUnderflow else none
  | .call a =>
    if 8 ≤ a.toNat then some .invalidRegister
    else if s.sp = 0 then some .stackOverflow
    else if s.pc.toNat = 254 then some .outOfBounds
    else none
  | .ret => if s.sp = 255 then some .stackUnderflow else none

/-- The first failing check of a list, taken one check at a time. -/
theorem find_check_cons (c : Bool) (k : FaultKind) (rest : List (Bool × FaultKind)) :
    (((c, k) :: rest).find? fun c => c.1).map (fun c => c.2) =
      if c = true then some k else (rest.find? fun c => c.1).map fun c => c.2 := by
  cases c <;> rfl

/-- An instruction that stands at pc has passed the checks of the fetch: address, opcode, operand addresses. -/
theorem firstFault_past_fetch {i : Instr} {s : State} (h : StandsAtPc i s) :
    firstFault s = (((faultChecks s).drop 4).find? fun c => c.1).map fun c => c.2 := by
  have hin := h.inside
  rw [operandBytes_length] at hin
  have hopcode : ¬ (decide (handlerOf i.opcode = none) && s.strictOpcodes) = true := by simp
  have hcount : ∀ n, ¬ (decide (n ≤ operandCount i.opcode) && decide (256 ≤ s.pc.toNat + n)) = true := fun n => by
    rw [Bool.and_eq_true, decide_eq_true_iff, decide_eq_true_iff]
    omega
  simp only [firstFault, faultChecks, find_check_cons, h.opcode, handlerOf_instr_opcode, Option.elim_some,
    List.drop_succ_cons, List.drop_zero] at hopcode ⊢
  rw [if_neg (by simpa using h.pc_lt), if_neg hopcode, if_neg (hcount 1), if_neg (hcount 2)]

theorem StandsAtPc.read_first {i : Instr} {s : State} {a : Byte} {rest : List Byte} (h : StandsAtPc i s)
    (hi : i.operandBytes = a :: rest) : s.mem.read (s.pc.toNat + 1) = a :=
  (h.read_operand (k := 0) (by simp [hi])).trans (by simp [hi])

theorem StandsAtPc.read_second {i : Instr} {s : State} {a b : Byte} {rest : List Byte} (h : StandsAtPc i s)
    (hi : i.operandBytes = a :: b :: rest) : s.mem.read (s.pc.toNat + 2) = b :=
  (h.read_operand (k := 1) (by simp [hi])).trans (by simp [hi])

/-- Two checks that raise the same fault are one check of either. -/
theorem if_either {α : Type} {p q : Prop} [Decidable p] [Decidable q] (x y : α) :
    (if p ∨ q then x else y) = if p then x else if q then x else y := by
  by_cases hp : p
  · rw [if_pos (.inl hp), if_pos hp]
  · rw [if_neg hp]
    by_cases hq : q
    · rw [if_pos (.inr hq), if_pos hq]
    · rw [if_neg (not_or.2 ⟨hp, hq⟩), if_neg hq]

/-- The checks that the fetch leaves open are those of the instruction, its operand bytes being the bytes after pc. -/
theorem firstFault_of_standsAtPc {i : Instr} {s : State} (h : StandsAtPc i s) : firstFault s = faultOf i s := by
  rw [firstFault_past_fetch h]
  simp only [faultChecks, find_check_cons, h.opcode, handlerOf_instr_opcode, Option.elim_some,
    List.drop_succ_cons, List.drop_zero]
  cases i with
  | hlt | ret => simp [Instr.handler, Handler.registerOperands, faultOf]
  | ldi a _ | prn a | push a | pop a | call a =>
    simp [Instr.handler, Handler.registerOperands, faultOf, h.read_first rfl]
  | add a b | sub a b | mul a b | div a b =>
    simp [Instr.handler, Handler.registerOperands, faultOf, h.read_first rfl, h.read_second rfl, if_either]

/-! ### What an instruction's checks decide -/

/-- The instruction takes the given fault, or completes if none is given. -/
def Decides (i : Instr) (s : State) : Option FaultKind → Prop
  | some k => exec i s = .next (takeFault k i.opcode s)
  | none => ∃ t, exec i s = .next t ∧ (t.run = s.run ∨ t.run = .halted)

section
variable {i : Instr} {s : State}

theorem decides_check {c : Prop} [Decidable c] {k : FaultKind} {later : Option FaultKind}
    (hfail : c → exec i s = .next (takeFault k i.opcode s)) (hpass : ¬ c → Decides i s later) :
    Decides i s (if c then some k else later) := by
  split
  · exact hfail ‹_›
  · exact hpass ‹_›

/-- The check of one register byte. -/
theorem decides_register {a : Byte} {later : Option FaultKind}
    (hfail : 8 ≤ a.toNat → exec i s = .next (takeFault .invalidRegister i.opcode s))
    (hpass : ∀ r : Fin 8, a.toNat = r.val → Decides i s later) :
    Decides i s (if 8 ≤ a.toNat then some .invalidRegister else later) :=
  decides_check hfail fun ha => (exists_register (Nat.lt_of_not_le ha)).elim hpass

/-- The check of two register bytes, which raise the same fault. -/
theorem decides_registers {a b : Byte} {later : Option FaultKind}
    (hfail : 8 ≤ a.toNat ∨ 8 ≤ b.toNat → exec i s = .next (takeFault .invalidRegister i.opcode s))
    (hpass : ∀ ra rb : Fin 8, a.toNat = ra.val → b.toNat = rb.val → Decides i s later) :
    Decides i s (if 8 ≤ a.toNat ∨ 8 ≤ b.toNat then some .invalidRegister else later) :=
  decides_check hfail fun hab => by
    obtain ⟨ra, hra⟩ := exists_register (Nat.lt_of_not_le fun ha => hab (.inl ha))
    obtain ⟨rb, hrb⟩ := exists_register (Nat.lt_of_not_le fun hb => hab (.inr hb))
    exact hpass ra rb hra hrb

/-- Where the operand bytes lie in memory, the instruction's own checks decide. -/
theorem faultOf_decides (hp : s.pc.toNat + i.operandBytes.length < 256) : Decides i s (faultOf i s) := by
  cases i with
  | ldi a imm8 =>
    exact decides_register (runHandler_register_invalid (h := .ldi) _ hp)
      fun r hr => ⟨_, exec_ldi_of_checks hr hp imm8, .inl (autoAdvance_run _ _)⟩
  | prn a =>
    exact decides_register (runHandler_register_invalid (h := .prn) _ hp)
      fun r hr => ⟨_, exec_prn_of_checks hr hp, .inl (autoAdvance_run _ _)⟩
  | hlt => exact ⟨_, (hltHaltsAndAdvances s).2, .inr rfl⟩
  | add a b =>
    obtain ⟨-, -, hinvalid, hvalid⟩ := addStoresTheSumModulo256 s a b
    exact decides_registers (hinvalid hp) fun ra rb hra hrb => ⟨_, hvalid hp ra rb hra hrb, .inl rfl⟩
  | sub a b =>
    obtain ⟨-, -, hinvalid, hvalid⟩ := subStoresTheDifferenceModulo256 s a b
    exact decides_registers (hinvalid hp) fun ra rb hra hrb => ⟨_, hvalid hp ra rb hra hrb, .inl rfl⟩
  | mul a b =>
    obtain ⟨-, -, hinvalid, hvalid⟩ := mulStoresTheProductModulo256 s a b
    exact decides_registers (hinvalid hp) fun ra rb hra hrb => ⟨_, hvalid hp ra rb hra hrb, .inl rfl⟩
  | div a b =>
    obtain ⟨-, -, hinvalid, hvalid⟩ := divStoresTheTruncatedQuotient s a b
    refine decides_registers (hinvalid hp) fun ra rb hra hrb => ?_
    obtain ⟨hzero, hnonzero⟩ := hvalid hp ra rb hra hrb
    have hdivisor : s.x[b.toNat]? = some s.x[rb] := by rw [hrb]; exact Vector.getElem?_eq_getElem rb.isLt
    rw [hdivisor]
    exact decides_check (fun hz => hzero (Option.some.inj hz))
      fun hz => ⟨_, hnonzero (fun h0 => hz (congrArg some h0)), .inl rfl⟩
  | push a =>
    exact decides_register (runHandler_register_invalid (h := .push) _ hp) fun r hr =>
      decides_check (exec_push_overflow hr hp)
        fun hsp => ⟨_, exec_push_of_checks hr hp hsp, .inl (autoAdvance_run _ _)⟩
  | pop a =>
    exact decides_register (runHandler_register_invalid (h := .pop) _ hp) fun r hr =>
      decides_check (exec_pop_underflow hr hp)
        fun hsp => ⟨_, exec_pop_of_checks hr hp hsp, .inl (autoAdvance_run _ _)⟩
  | call a =>
    have hin : s.pc.toNat + 1 < 256 := hp
    exact decides_register (runHandler_register_invalid (h := .call) _ hp) fun r hr =>
      decides_check (exec_call_overflow hr hp) fun hsp =>
        decides_check (exec_call_return_outside hr hsp)
          fun hlast => ⟨_, exec_call_of_checks hr (by omega) hsp, .inl rfl⟩
  | ret => exact decides_check exec_ret_underflow fun hsp => ⟨_, exec_ret_of_checks hsp, .inl rfl⟩

end

/-! ### The whole step -/

theorem opcodeToRecord_inside {s : State} (hp : s.pc.toNat < 256) : s.opcodeToRecord = s.mem.read s.pc.toNat :=
  if_neg (Nat.not_le_of_lt hp)

theorem firstFault_outside {s : State} (hp : 256 ≤ s.pc.toNat) : firstFault s = some .outOfBounds := by
  simp [firstFault, faultChecks, hp]

/-- An unknown opcode has no operands, so the policy is its only check. -/
theorem firstFault_unknown {s : State} (hp : s.pc.toNat < 256) (hu : handlerOf (s.mem.read s.pc.toNat) = none) :
    firstFault s = if s.strictOpcodes = true then some .unknownOpcode else none := by
  simp [firstFault, faultChecks, find_check_cons, hu, hp]

/-- A defined opcode whose last operand byte lies outside memory fails at its first or at its second operand. -/
theorem firstFault_operand_outside {s : State} {h : Handler} (hp : s.pc.toNat < 256)
    (hk : handlerOf (s.mem.read s.pc.toNat) = some h) (hc : 0 < operandCount h.opcode)
    (hout : 256 ≤ s.pc.toNat + operandCount h.opcode) : firstFault s = some .outOfBounds := by
  rw [opcode_of_handlerOf hk] at hc hout
  have hle : operandCount (s.mem.read s.pc.toNat) ≤ 2 := by
    rw [← opcode_of_handlerOf hk]
    cases h <;> decide
  by_cases hfirst : 256 ≤ s.pc.toNat + 1
  · simp [firstFault, faultChecks, hk, hp, Nat.succ_le_of_lt hc, hfirst]
  · have htwo : 2 ≤ operandCount (s.mem.read s.pc.toNat) := by omega
    have hsecond : 256 ≤ s.pc.toNat + 2 := by omega
    have hone : 1 ≤ operandCount (s.mem.read s.pc.toNat) := by omega
    simp [firstFault, faultChecks, hk, hp, hone, htwo, hfirst, hsecond]

/-- What R212 asks of a step from `s` to `t`. -/
def FollowsFirstFault (s t : State) : Prop :=
  (∀ k, firstFault s = some k → t = takeFault k s.opcodeToRecord s) ∧ (firstFault s = none → t.run ≠ .faulted)

theorem followsFirstFault_of_fault {s : State} {k : FaultKind} (h : firstFault s = some k) :
    FollowsFirstFault s (takeFault k s.opcodeToRecord s) := by
  refine ⟨fun k' hk' => ?_, fun hnone => ?_⟩
  · obtain rfl := Option.some.inj (h.symm.trans hk')
    rfl
  · cases h.symm.trans hnone

theorem followsFirstFault_of_completes {s t : State} (h : firstFault s = none) (ht : t.run ≠ .faulted) :
    FollowsFirstFault s t :=
  ⟨fun k hk => absurd (hk.symm.trans h) (Option.some_ne_none k), fun _ => ht⟩

theorem followsFirstFault_unknown {s : State} (hr : s.run = .running) (hp : s.pc.toNat < 256)
    (hu : handlerOf (s.mem.read s.pc.toNat) = none) :
    FollowsFirstFault s (unknownOpcodeCycle (s.mem.read s.pc.toNat) s) := by
  have hf := firstFault_unknown hp hu
  cases hpolicy : s.strictOpcodes with
  | true =>
    rw [hpolicy, if_pos rfl] at hf
    rw [unknownOpcodeCycle_strict hpolicy, ← opcodeToRecord_inside hp]
    exact followsFirstFault_of_fault hf
  | false =>
    rw [hpolicy, if_neg Bool.false_ne_true] at hf
    rw [unknownOpcodeCycle_permissive hpolicy]
    exact followsFirstFault_of_completes hf (by simp [hr])

theorem followsFirstFault_exec {i : Instr} {s t : State} (hr : s.run = .running) (hi : StandsAtPc i s)
    (e : exec i s = .next t) : FollowsFirstFault s t := by
  have hd := faultOf_decides hi.inside
  rw [← firstFault_of_standsAtPc hi] at hd
  cases hf : firstFault s with
  | some k =>
    rw [hf] at hd
    obtain rfl := Host.Outcome.next.inj (e.symm.trans hd)
    rw [← hi.opcode, ← opcodeToRecord_inside hi.pc_lt]
    exact followsFirstFault_of_fault hf
  | none =>
    rw [hf] at hd
    obtain ⟨u, hu, hrun⟩ := hd
    obtain rfl := Host.Outcome.next.inj (e.symm.trans hu)
    refine followsFirstFault_of_completes hf ?_
    rcases hrun with hrun | hrun <;> simp [hrun, hr]

/-- Settles O18: in each of the engine's four cases the checks before the failing one pass, and an instruction at pc has
only its own checks left. -/
theorem firstFailingCheckDecidesTheFault : Obligations.FirstFailingCheckDecidesTheFault := by
  intro s t hr e
  change FollowsFirstFault s t
  rcases step_cases hr with ⟨hp, hs⟩ | ⟨hp, hu, hs⟩ | ⟨h, hp, hk, hc, hout, hs⟩ | ⟨i, hi, hs⟩ <;> rw [e] at hs
  · have hop : s.opcodeToRecord = 0 := if_pos hp
    rw [Host.Outcome.next.inj hs, ← hop]
    exact followsFirstFault_of_fault (firstFault_outside hp)
  · rw [Host.Outcome.next.inj hs]
    exact followsFirstFault_unknown hr hp hu
  · rw [Host.Outcome.next.inj hs, ← opcodeToRecord_inside hp]
    exact followsFirstFault_of_fault (firstFault_operand_outside hp hk hc hout)
  · exact followsFirstFault_exec hr hi hs.symm

end Sys2Proof.Machine

/-! The step equals the spec's own pseudocode of a step (40_engine.md R110): first that each instruction's meaning is
the pseudocode of its handler with the operands it fetches, then the engine's four cases. -/

namespace Sys2Proof.Machine

/-! ### Operand fetches of the pseudocode (30_encoding.md R85) -/

theorem reference_fetch_inside {k : Nat} {s : State} (h : s.pc.toNat + k < 256) :
    Reference.fetch k s = .ok (s.mem.read (s.pc.toNat + k)) := memRead_inside h s

theorem reference_fetch_outside {k : Nat} {s : State} (h : 256 ≤ s.pc.toNat + k) :
    Reference.fetch k s = .error .outOfBounds := memRead_outside h s

section
variable {i : Instr} {s : State} {a b : Byte} {rest : List Byte}

theorem StandsAtPc.fetch_first (h : StandsAtPc i s) (hi : i.operandBytes = a :: rest) :
    Reference.fetch 1 s = .ok a := by
  have hin := h.inside
  rw [hi, List.length_cons] at hin
  rw [reference_fetch_inside (by omega), h.read_first hi]

theorem StandsAtPc.fetch_second (h : StandsAtPc i s) (hi : i.operandBytes = a :: b :: rest) :
    Reference.fetch 2 s = .ok b := by
  have hin := h.inside
  rw [hi, List.length_cons, List.length_cons] at hin
  rw [reference_fetch_inside (by omega), h.read_second hi]

theorem StandsAtPc.operandsRR_eq (h : StandsAtPc i s) (hi : i.operandBytes = a :: b :: rest) :
    Reference.operandsRR s = (do let ra ← regIdx a; let rb ← regIdx b; pure (ra, rb)) := by
  rw [Reference.operandsRR, h.fetch_first hi, h.fetch_second hi]
  rfl

/-- The operand check of the model repeats what the fetch decided (log 4). -/
theorem StandsAtPc.fetchOperands_eq (h : StandsAtPc i s) : fetchOperands i.handler s = .ok () := by
  have hin := h.inside
  rw [operandBytes_length] at hin
  exact fetchOperands_ok hin

/-! ### One handler's pseudocode -/

/-- One register operand: the model takes it from the instruction, the pseudocode fetches it. -/
theorem StandsAtPc.register_operand_eq (h : StandsAtPc i s) (hi : i.operandBytes = a :: rest)
    {f g : Fin 8 → Except FaultKind State} (hfg : ∀ r, f r = g r) :
    (do fetchOperands i.handler s; let r ← regIdx a; f r) =
      (do let b1 ← Reference.fetch 1 s; let r ← regIdx b1; g r) := by
  rw [h.fetchOperands_eq, h.fetch_first hi, funext hfg]
  rfl

/-- Two register operands: ADD, SUB, MUL and DIV take the ALU's answer, the pseudocode writes it out. -/
theorem StandsAtPc.aluWriteBack_eq (h : StandsAtPc i s) (hi : i.operandBytes = a :: b :: rest) {op : AluOp}
    {effect : Fin 8 × Fin 8 → Except FaultKind State}
    (he : ∀ ra rb, (do let v ← alu op (s.reg ra) (s.reg rb); pure (s.setReg ra v)) = effect (ra, rb)) :
    aluWriteBack i.handler op a b s = Reference.operandsRR s >>= effect := by
  rw [aluWriteBack, h.fetchOperands_eq, h.operandsRR_eq hi]
  rcases regIdx_cases a with ⟨ra, -, ha⟩ | ⟨-, ha⟩ <;> rw [ha]
  · rcases regIdx_cases b with ⟨rb, -, hb⟩ | ⟨-, hb⟩ <;> rw [hb]
    · exact he ra rb
    · rfl
  · rfl

end

/-- A division: the pseudocode checks the divisor where the model's ALU does. -/
theorem alu_div_eq_reference (s : State) (ra rb : Fin 8) :
    (do let v ← alu .div (s.reg ra) (s.reg rb); pure (s.setReg ra v)) =
      (do Reference.raiseIf (s.x[rb] == 0) .divisionByZero
          pure { s with x := s.x.set ra (BitVec.ofNat 8 (s.x[ra].toNat / s.x[rb].toNat)) }) := by
  by_cases hb : s.x[rb] = 0
  · rw [alu_div_zero _ (show s.reg rb = 0 from hb), beq_iff_eq.2 hb]
    rfl
  · rw [alu_div_nonzero _ (show s.reg rb ≠ 0 from hb), beq_eq_false_iff_ne.2 hb]
    rfl

theorem decrementSp_bind_eq_reference (s : State) (f : State → Except FaultKind State) :
    (decrementSp s >>= f) =
      (do Reference.raiseIf (s.x[7] == 0) .stackOverflow; f { s with x := s.x.set 7 (s.x[7] - 1) }) := by
  rcases decrementSp_cases s with ⟨hsp, hd⟩ | ⟨hsp, hd⟩ <;> rw [hd]
  · rw [beq_iff_eq.2 (show s.x[7] = 0 from hsp)]
    rfl
  · rw [beq_eq_false_iff_ne.2 (show s.x[7] ≠ 0 from hsp)]
    rfl

theorem topOfStack_bind_eq_reference (s : State) (f : Byte → Except FaultKind State) :
    (topOfStack s >>= f) =
      (do Reference.raiseIf (s.x[7] == 255) .stackUnderflow; let v ← memRead s.x[7].toNat s; f v) := by
  by_cases hsp : s.x[7] = 255
  · rw [topOfStack, if_pos (show s.sp = 255 from hsp), beq_iff_eq.2 hsp]
    rfl
  · rw [topOfStack, if_neg (show s.sp ≠ 255 from hsp), beq_eq_false_iff_ne.2 hsp]
    rfl

/-- CALL's store: the pseudocode checks the return address before the decrement, the model as the store's value. -/
theorem call_store_eq_reference (s t : State) (f : State → Except FaultKind State) :
    (memWrite t.sp.toNat (s.pc.toNat + 2) t >>= f) =
      (do Reference.raiseIf (decide (256 ≤ s.pc.toNat + 2)) .outOfBounds
          let u ← memWrite t.x[7].toNat (s.pc.toNat + 2) t
          f u) := by
  by_cases hret : 256 ≤ s.pc.toNat + 2
  · rw [memWrite_value_outside t.sp.isLt hret, decide_eq_true hret]
    rfl
  · rw [decide_eq_false hret]
    rfl

/-- The meaning of the instruction at pc is the pseudocode of its handler, which fetches the operands itself. -/
theorem StandsAtPc.exec_eq_reference {i : Instr} {s : State} (h : StandsAtPc i s) :
    exec i s = runHandler i.handler s (Reference.handler i.handler s) := by
  cases i with
  | ldi a imm8 =>
    refine congrArg (runHandler .ldi s) ((h.register_operand_eq rfl fun _ => rfl).trans ?_)
    change _ = Reference.handler .ldi s
    rw [Reference.handler, h.fetch_second rfl]
    rfl
  | prn a => exact congrArg (runHandler .prn s) (h.register_operand_eq rfl fun _ => rfl)
  | hlt => rfl
  | add a b => exact congrArg (runHandler .add s) (h.aluWriteBack_eq rfl fun ra rb => by rw [alu_add]; rfl)
  | sub a b =>
    exact congrArg (runHandler .sub s)
      (h.aluWriteBack_eq rfl fun ra rb => by rw [(aluComputesItsFourOperations _ _).2.1]; rfl)
  | mul a b => exact congrArg (runHandler .mul s) (h.aluWriteBack_eq rfl fun ra rb => by rw [alu_mul]; rfl)
  | div a b => exact congrArg (runHandler .div s) (h.aluWriteBack_eq rfl (alu_div_eq_reference s))
  | push a =>
    exact congrArg (runHandler .push s)
      (h.register_operand_eq rfl fun r => decrementSp_bind_eq_reference s _)
  | pop a =>
    exact congrArg (runHandler .pop s)
      (h.register_operand_eq rfl fun r => topOfStack_bind_eq_reference s _)
  | call a =>
    refine congrArg (runHandler .call s) (h.register_operand_eq rfl fun r => ?_)
    refine (decrementSp_bind_eq_reference s _).trans ?_
    exact congrArg _ (funext fun _ => call_store_eq_reference s _ _)
  | ret => exact congrArg (runHandler .ret s) (topOfStack_bind_eq_reference s _)

/-- Of two fetches the first or the second fails. -/
theorem reference_fetch_two_outside {α : Type} {s : State} (hp : 256 ≤ s.pc.toNat + 2)
    (f : Byte → Byte → Except FaultKind α) :
    (do let b1 ← Reference.fetch 1 s; let b2 ← Reference.fetch 2 s; f b1 b2) = .error .outOfBounds := by
  rw [reference_fetch_outside hp]
  by_cases hfirst : s.pc.toNat + 1 < 256
  · rw [reference_fetch_inside hfirst]
    rfl
  · rw [reference_fetch_outside (Nat.le_of_not_lt hfirst)]
    rfl

/-- A defined opcode whose operand bytes do not all lie in memory: the pseudocode's handler fails at a fetch. -/
theorem reference_handler_operand_outside {h : Handler} {s : State} (hc : 0 < operandCount h.opcode)
    (hout : 256 ≤ s.pc.toNat + operandCount h.opcode) : Reference.handler h s = .error .outOfBounds := by
  rw [operandCount_opcode] at hc hout
  cases h with
  | hlt | ret => exact absurd hc (Nat.lt_irrefl 0)
  | ldi => exact reference_fetch_two_outside hout _
  | prn | push | pop | call =>
    rw [Reference.handler, reference_fetch_outside hout]
    rfl
  | add | sub | mul | div =>
    rw [Reference.handler, Reference.operandsRR, reference_fetch_two_outside hout]
    rfl

/-! ### The engine's pseudocode -/

theorem autoAdvance_eq_reference (op : Byte) (s : State) :
    autoAdvance op s = if setsPc op then s else { s with pc := s.pc + BitVec.ofNat 9 (operandCount op) + 1 } := by
  rw [autoAdvance, BitVec.ofNat_add, BitVec.add_assoc]
  rfl

theorem reference_step_outside {s : State} (hr : s.run = .running) (hp : 256 ≤ s.pc.toNat) :
    Reference.step s = .next (takeFault .outOfBounds 0 s) := by
  simp only [Reference.step, hr, memRead_outside hp]

theorem reference_step_unknown {s : State} (hr : s.run = .running) (hp : s.pc.toNat < 256)
    (hu : handlerOf (s.mem.read s.pc.toNat) = none) :
    Reference.step s = .next (unknownOpcodeCycle (s.mem.read s.pc.toNat) s) := by
  simp only [Reference.step, hr, memRead_inside hp, decodeOpcode, hu, unknownOpcodeCycle, autoAdvance_eq_reference]
  split
  · rfl
  · split <;> rfl

theorem reference_step_known {s : State} {h : Handler} (hr : s.run = .running) (hp : s.pc.toNat < 256)
    (hk : handlerOf (s.mem.read s.pc.toNat) = some h) :
    Reference.step s = runHandler h s (Reference.handler h s) := by
  simp only [Reference.step, hr, memRead_inside hp, decodeOpcode, ← opcode_of_handlerOf hk, handlerOf_opcode]
  cases Reference.handler h s with
  | error k => rfl
  | ok t =>
    rw [runHandler_ok, autoAdvance_eq_reference]
    exact (apply_ite Host.Outcome.next _ _ _).symm

/-- Settles O8: the engine's four cases are the same on both sides, and in the last the instruction at pc is the
pseudocode's handler. -/
theorem stepFollowsTheSpecsPseudocode : Obligations.StepFollowsTheSpecsPseudocode := by
  intro s
  cases hr : s.run with
  | halted => simp only [step, Reference.step, hr]
  | faulted => simp only [step, Reference.step, hr]
  | running =>
    rcases step_cases hr with ⟨hp, hs⟩ | ⟨hp, hu, hs⟩ | ⟨h, hp, hk, hc, hout, hs⟩ | ⟨i, hi, hs⟩
    · rw [hs, reference_step_outside hr hp]
    · rw [hs, reference_step_unknown hr hp hu]
    · rw [hs, reference_step_known hr hp hk, reference_handler_operand_outside hc hout, runHandler_error,
        opcode_of_handlerOf hk]
    · have hk : handlerOf (s.mem.read s.pc.toNat) = some i.handler := by rw [hi.opcode, handlerOf_instr_opcode]
      rw [hs, reference_step_known hr hi.pc_lt hk, hi.exec_eq_reference]

end Sys2Proof.Machine
